-- ==== Sys2Proof/Word.lean ====
section
/-! DEFINITION. Sys2Proof/Word.lean: the fixed-width words that cross the block's two ports or sit in its
registers (10_state.md R20, 30_encoding.md R70, R73, R74, R77). Values the spec gives no fixed width (phases,
slot counts, codes of a configurable width, upsampled values, the carried error) are not words: they are `Nat`
or exact rationals `ℚ` (00_scope.md R11). -/

namespace Sys2Proof

/-- A sample register or field: 16 bits, read as a signed integer through `s16` (R20, R70). -/
abbrev Sample := BitVec 16

/-- A packed byte, and the accumulator `ACC` (R20, R73). -/
abbrev Byte := BitVec 8

/-- A command word `CW` of port `CI` (R74). -/
abbrev CommandWord := BitVec 17

/-- An output word `OW` of port `CO` (R77). -/
abbrev OutputWord := BitVec 9

end Sys2Proof
end

