-- ==== Sys2Proof/Syntax.lean ====
section
/-! DEFINITION. Sys2Proof/Syntax.lean: the four encoded words of the block (spec/opcode_table.json), the tokens of
its four channels (20_memory.md R50 to R53) and the names of the events that can happen to it
(43_commands.md R209, 70_reset_and_hazards.md R260). -/

namespace Sys2Proof

/-- The rows of spec/opcode_table.json: the two commands a host sends on port `CI` and the two kinds of output word
the host takes from port `CO` (00_scope.md R2, 30_encoding.md R80). -/
inductive Instr where
  /-- `SMP x`: one sample (R75, R200). -/
  | smp (x : Sample)
  /-- `END`: the run is over (R76, R201); its 16 operand bits are ignored and not kept. -/
  | endRun
  /-- `DAT b`: one packed byte of the current run (R78, R202). -/
  | dat (b : Byte)
  /-- `EOR t`: the run's output is over, `t` its `TRUNC` flag (R79, R203). -/
  | eor (t : Bool)
  deriving DecidableEq, Repr

/-- A word as it stands on one of the two ports (R74, R77). -/
inductive PortWord where
  /-- A 17-bit command word on `ci_data`. -/
  | cw (w : CommandWord)
  /-- A 9-bit output word on `co_data`. -/
  | ow (w : OutputWord)
  deriving DecidableEq, Repr

/-- A token of `CI` (R50). -/
inductive CmdTok where
  | smp (x : Sample)
  | endRun
  deriving DecidableEq, Repr

/-- A token of `CU` (R51): an upsampled value is an exact rational (R71). -/
inductive ValTok where
  | val (u : ℚ)
  | endRun
  deriving DecidableEq, Repr

/-- A token of `CC` (R52): a code is an unsigned integer; its bound `2^W - 1` is part of `Inv`. -/
inductive CodeTok where
  | code (q : Nat)
  | endRun
  deriving DecidableEq, Repr

/-- A token of `CO` (R53). -/
inductive OutTok where
  | dat (b : Byte)
  | eor (t : Bool)
  deriving DecidableEq, Repr

/-- What can happen next to the machine: the twelve steps of R209, each under its own name, and the reset input
`rst` of R260. -/
inductive Event where
  | hostPut | hostTake
  | upsFirst | upsNext | upsEmit | upsTail | upsFwd
  | qntStep | qntEnd
  | pckShift | pckPad | pckEor
  | rst
  deriving DecidableEq, Repr, Inhabited

end Sys2Proof
end

