-- ==== Sys2Proof/Config.lean ====
section
/-! DEFINITION. Sys2Proof/Config.lean: what is fixed when the block is built (00_scope.md R7 to R10, 60_exceptions.md
R231), and the values and choices the spec leaves open, each an opaque constant without a body. -/

namespace Sys2Proof.Config

/-- `cfg_ok(F, W)` of R10. -/
abbrev CfgOk (F W : Nat) : Prop := 1 ≤ F ∧ 1 ≤ W ∧ W ≤ 8

/-- A channel capacity is at least 1 or unbounded (`none`) (R9, R54). -/
abbrev CapOk (cap : Option Nat) : Prop := cap ≠ some 0

/-- The configuration of one built block: the upsampling factor, the code width and the four channel capacities,
together with the proof that they are legal, so that an ill-formed configuration cannot be written down (R231). -/
structure Params where
  /-- upsampling factor `F` -/
  F : Nat
  /-- quantizer bit width `W` -/
  W : Nat
  capCI : Option Nat
  capCU : Option Nat
  capCC : Option Nat
  capCO : Option Nat
  ok : CfgOk F W
  capsOk : CapOk capCI ∧ CapOk capCU ∧ CapOk capCC ∧ CapOk capCO
  deriving DecidableEq, Repr

/-- The defaults of R7 (`F = 520`, `W = 4`) with the capacities of 92_eei_decisions.md D14 (unbounded). -/
def defaults : Params where
  F := 520
  W := 4
  capCI := none
  capCU := none
  capCC := none
  capCO := none
  ok := by decide
  capsOk := by decide

/-- Why a block is not built: E1, the one error of NSA's taxonomy (R230) that is raised at build time, and an error of
the model's own for a channel capacity of 0, for which the taxonomy names none. -/
inductive BuildError where
  /-- ConfigurationError (R10, R231): `cfg_ok` fails; fatal, before any state exists. -/
  | configuration
  /-- A channel capacity of 0. R9 and R54 give only the legal values (`>= 1` or unbounded) and R230 names no error for
  this one: the error is the model's choice (DESIGN CHOICE, notes/assumptions/16.md). -/
  | capacity
  deriving DecidableEq, Repr

/-- Building a block (R231): the configuration with its proofs, or the error, raised before any state exists.
The capacities are looked at after `F` and `W` (DESIGN CHOICE, notes/assumptions/16.md). -/
def build (F W : Nat) (capCI capCU capCC capCO : Option Nat) : Except BuildError Params :=
  if ok : CfgOk F W then
    if capsOk : CapOk capCI ∧ CapOk capCU ∧ CapOk capCC ∧ CapOk capCO then
      .ok { F, W, capCI, capCU, capCC, capCO, ok, capsOk }
    else .error .capacity
  else .error .configuration

/-- FREE VALUE (R61, R209, 93_implementation_defined.md U16): which event comes next when nothing has fixed the
schedule; applied to the state's counter `tick` (DESIGN CHOICE of the form, safe: notes/assumptions/2.md). -/
opaque freeEvent : Nat → Event

/-- FREE VALUE (R260, R261, U13): what `XL` holds after the reset input; applied to the state's counter
`tick` (DESIGN CHOICE of the form, safe: notes/assumptions/3.md). -/
opaque freeXL : Nat → Sample

/-- FREE VALUE (R260, R261, U13): what `XR` holds after the reset input; applied to the state's counter
`tick` (DESIGN CHOICE of the form, safe: notes/assumptions/3.md). -/
opaque freeXR : Nat → Sample

end Sys2Proof.Config
end

