-- ==== Sys2Proof/Decode.lean ====
section
/-! DEFINITION. Sys2Proof/Decode.lean: reading the words of the two ports and writing them (30_encoding.md R70 to R83).
Decoding is total; the output words the block never emits are rejected by name. -/

namespace Sys2Proof

/-- `s16(v)`, the signed reading of a 16-bit word (00_scope.md R12, R70). -/
def s16 (v : Sample) : Int :=
  if v.toNat < 32768 then v.toNat else (v.toNat : Int) - 65536

/-- `u16(x) = x mod 65536`, the word of a sample (R12). -/
def u16 (x : Int) : Sample := BitVec.ofNat 16 (x % 65536).toNat

/-- Why a word stands for none of the four rows. -/
inductive DecodeError where
  /-- An output word `0x102 .. 0x1FF` (R79, R82): "looking at something that is not this block". -/
  | neverEmitted (w : OutputWord)
  deriving DecidableEq, Repr

/-- `decode(CW)` of R74: bit 16 alone selects, every one of the `2^17` words is SMP or END (R81, R82). -/
def decodeCommand (w : CommandWord) : Instr :=
  if w.getLsbD 16 = false then .smp (w.extractLsb' 0 16) else .endRun

/-- The output words by the match and mask of R78 and R79; the rest of the word space is never emitted (R81), and that
it is refused is the model's choice (DEDUCED, safe: notes/assumptions/9.md). -/
def decodeOutput (w : OutputWord) : Except DecodeError Instr :=
  if w.getLsbD 8 = false then .ok (.dat (w.extractLsb' 0 8))
  else if w.extractLsb' 1 7 = 0#7 then .ok (.eor (w.getLsbD 0))
  else .error (.neverEmitted w)

/-- The word on a port, read as the row it stands for. -/
def decode : PortWord → Except DecodeError Instr
  | .cw w => .ok (decodeCommand w)
  | .ow w => decodeOutput w

/-- The host's own reading of an output word, which looks at bits 8 and 7:0 only (the last sentence of R77). It and
`decodeOutput` give the same answer on every word the block emits. -/
def hostRead (w : OutputWord) : OutTok :=
  if w.getLsbD 8 = false then .dat (w.extractLsb' 0 8) else .eor (w.getLsbD 0)

/-- The canonical word of each row (R75, R76, R78, R79): SMP is `u16(x)` with bit 16 zero, END has the operand field
zero, DAT is the byte with bit 8 zero, EOR has bits 7:1 zero. -/
def encode : Instr → PortWord
  | .smp x => .cw (x.setWidth 17)
  | .endRun => .cw 0x10000#17
  | .dat b => .ow (b.setWidth 9)
  | .eor t => .ow (if t then 0x101#9 else 0x100#9)

/-- The row an output token is sent as (R53, R77). -/
def outRow : OutTok → Instr
  | .dat b => .dat b
  | .eor t => .eor t

/-- The token of `CI` as a command (R50, R74). -/
def cmdRow : CmdTok → Instr
  | .smp x => .smp x
  | .endRun => .endRun

/-- The word a host sends for a command token: the canonical word of R75 and R76. -/
def commandWord : CmdTok → CommandWord
  | .smp x => x.setWidth 17
  | .endRun => 0x10000#17

/-- The word the block shows on `co_data` for an output token (R77 to R79). -/
def outputWord : OutTok → OutputWord
  | .dat b => b.setWidth 9
  | .eor t => if t then 0x101#9 else 0x100#9

/-- An opcode-table word laid on the port its row belongs to: a row of at most 16 bits (in whole bytes) is an
output word of 9 wires, a longer one a command word of 17 wires; a bit set on a wire that the port does not have
makes it no word of the port (R60, R74, R77; both DESIGN CHOICE, safe: notes/assumptions/10.md). -/
def tableWord (nbits w : Nat) : Option PortWord :=
  if nbits ≤ 16 then
    if w < 2 ^ 9 then some (.ow (BitVec.ofNat 9 w)) else none
  else
    if w < 2 ^ 17 then some (.cw (BitVec.ofNat 17 w)) else none

/-- The row read from an opcode-table word of `nbits` bits, `none` where the decoder refuses. -/
def decodeTableWord (nbits w : Nat) : Option Instr :=
  match tableWord nbits w with
  | none => none
  | some p =>
    match decode p with
    | .ok i => some i
    | .error _ => none

end Sys2Proof
end

