-- ==== Sys2Proof/Machine/State.lean ====
section
/-! DEFINITION. Sys2Proof/Machine/State.lean: the thirteen state elements of 10_state.md R20, the model's own record of
the outside world (the host, the schedule, the configuration), the outcomes a step can stop with, and the state after
reset (R32, 70_reset_and_hazards.md R261). -/

namespace Sys2Proof.Machine

/-- The state. The first thirteen fields are R20's tuple; the last five are the MODEL's own. -/
structure State where
  /-- `XL`: left endpoint of the current span, read through `s16`. -/
  xl : Sample
  /-- `XR`: right endpoint of the current span, read through `s16`. -/
  xr : Sample
  /-- `VL`: `XL` holds a sample of the current run and its tail is not started. -/
  vl : Bool
  /-- `ACT`: a span or tail is being emitted. -/
  act : Bool
  /-- `PH`: phase of the next value to emit, `0 .. F-1`. -/
  ph : Nat
  /-- `ERR`: the carried quantization error, exact (R25). -/
  err : ℚ
  /-- `ACC`: the codes of the current group so far, first code uppermost (R27). -/
  acc : Byte
  /-- `CNT`: how many codes of the group are in `ACC`, `0 .. K-1`. -/
  cnt : Nat
  /-- `TRUNC`: the run's last group was short and was padded (R28). -/
  trunc : Bool
  /-- `CI`: host to UPS, oldest token first. -/
  ci : List CmdTok
  /-- `CU`: UPS to QNT. -/
  cu : List ValTok
  /-- `CC`: QNT to PCK. -/
  cc : List CodeTok
  /-- `CO`: PCK to host. -/
  co : List OutTok
  /-- MODEL: the build constants (R21); no step writes it. -/
  cfg : Config.Params
  /-- MODEL: the command words the host has still to send, in order (R204). -/
  toSend : List CommandWord
  /-- MODEL: the output words the host has taken, in order: the output stream of R205. -/
  received : List OutTok
  /-- MODEL: the events already fixed to come next, in order (R61). -/
  sched : List Event
  /-- MODEL: how many free values have been drawn; the argument of the opaque constants of `Config`. -/
  tick : Nat
  deriving DecidableEq, Repr

/-- Why a step faults. There is no constructor: no step of a built block raises anything (00_scope.md R14,
43_commands.md R209, 60_exceptions.md R234), so no meaning of this model can answer with a fault. Safe. -/
inductive Fault where
  deriving DecidableEq, Repr

/-- Why a step refuses. -/
inductive Refusal where
  /-- Raised by an arm of `exec` whose instruction has no meaning yet. No arm of this model raises it. Safe. -/
  | notModelled (mnemonic : String)
  /-- Raised by `step` where the port shows a word that no row decodes (the output words `0x102 .. 0x1FF` of
  30_encoding.md R79, "never emitted"). `CO` holds tokens, so no state of the model raises it. Safe. -/
  | undecodable (r : DecodeError)
  deriving DecidableEq, Repr

/-- The state right after reset, `S0` of R32, for the default configuration (R7). `XL` and `XR` are unspecified there:
the model names 0 for both (DESIGN CHOICE, unsafe, notes/assumptions/1.md). The host has nothing to send and has received
nothing; no event is fixed. -/
def State.reset : State where
  xl := 0#16
  xr := 0#16
  vl := false
  act := false
  ph := 0
  err := 0
  acc := 0#8
  cnt := 0
  trunc := false
  ci := []
  cu := []
  cc := []
  co := []
  cfg := Config.defaults
  toSend := []
  received := []
  sched := []
  tick := 0

end Sys2Proof.Machine
end

