-- ==== Sys2Proof/Machine/Flags.lean ====
section
/-! DEFINITION. Sys2Proof/Machine/Flags.lean: the block's one status flag, `TRUNC` (10_state.md R28). There are no
arithmetic condition codes. -/

namespace Sys2Proof.Machine

/-- `TRUNC <- 1`: the block's whole response to TruncatedInputError, the one condition it can meet at run time
(60_exceptions.md R233, R237). Nothing is saved, no mode changes, control goes nowhere; PCK.PAD alone does it (R28). -/
def raiseTruncated (s : State) : State := { s with trunc := true }

/-- `TRUNC <- 0`: PCK.EOR clears the flag it has just reported (R28, R238). -/
def clearTruncated (s : State) : State := { s with trunc := false }

end Sys2Proof.Machine
end

