-- ==== Sys2Proof/Machine/Operands.lean ====
section
/-! DEFINITION. Sys2Proof/Machine/Operands.lean: the constants derived from the configuration (00_scope.md R8) and the
values the steps compute from their operands: the interpolated value (40_upsampler.md R101, R102), the scaled value
(41_quantizer.md R132), one quantizer step (R133 to R137) in rational and in integer form (R140), and the packer's
shift and pad (42_packer.md R177, R178). -/

namespace Sys2Proof.Machine

/-- `K = floor(8 / W)`, codes per byte (R8). -/
def codesPerByte (p : Config.Params) : Nat := 8 / p.W

/-- `HALF = 2^(W-1)` (R8). -/
def half (W : Nat) : Nat := 2 ^ (W - 1)

/-- `MASK = 2^W - 1` (R8). -/
def mask (W : Nat) : Nat := 2 ^ W - 1

/-- `G = (2^W - 1) / 65536` (R8, R132). -/
def gain (W : Nat) : ℚ := (mask W : ℚ) / 65536

/-- `D = F * 65536`, the common denominator (R8, R140). -/
def denom (F : Nat) : Nat := F * 65536

/-- `PADCODE`, decided 0 (00_scope.md R9, R173). -/
def padCode : Nat := 0

/-- `U(i, j) = (F - j) * x[i] + j * x[i+1]` (R102). -/
def interpNumerator (F : Nat) (xl xr : Sample) (j : Nat) : Int :=
  ((F : Int) - j) * s16 xl + j * s16 xr

/-- The value at phase `j` of the span from `xl` to `xr`: `U(i, j) / F` (R102, R112). -/
def interpValue (F : Nat) (xl xr : Sample) (j : Nat) : ℚ :=
  (interpNumerator F xl xr j : ℚ) / F

/-- `s = G * u` (R132). -/
def scaleValue (W : Nat) (u : ℚ) : ℚ := gain W * u

/-- `Q = floor(value + HALF)`, an integer of any sign and size (R134, with `RND` decided `floor`). -/
def floored (W : Nat) (v : ℚ) : Int := ⌊v + half W⌋

/-- `Q mod 2^W`, the wrapped code (R134): floored modulus, so `0 ≤ q ≤ 2^W - 1` for every `Q`. -/
def wrapCode (W : Nat) (Q : Int) : Nat := (Q % (2 ^ W : Nat)).toNat

/-- `qstep(e, s)` of R137: the code and the residual carried forward, `v - (q - HALF)` with the wrapped code (R135). -/
def qstep (W : Nat) (e s : ℚ) : Nat × ℚ :=
  let v := s + e
  let q := wrapCode W (floored W v)
  (q, v - ((q : ℚ) - half W))

/-- One quantizer step on the integers `U` and `E` of R140: the code and `E'`. -/
def qstepInt (F W : Nat) (E U : Int) : Nat × Int :=
  let T := (mask W : Int) * U + E + (half W : Int) * denom F
  let q := wrapCode W (T / (denom F : Int))
  (q, T - (q : Int) * denom F)

/-- `((ACC << W) | q) & 0xFF` (R177); the mask is the register's width. -/
def shiftIn (W : Nat) (acc : Byte) (q : Nat) : Byte := (acc <<< W) ||| BitVec.ofNat 8 q

/-- `(ACC << (W * (K - CNT))) & 0xFF` (R178): `K - CNT` codes of value `PADCODE = 0` shifted in. -/
def padOut (p : Config.Params) (acc : Byte) (cnt : Nat) : Byte :=
  acc <<< (p.W * (codesPerByte p - cnt))

end Sys2Proof.Machine
end

