-- ==== Sys2Proof/Machine/Ops.lean ====
section
/-! DEFINITION. Sys2Proof/Machine/Ops.lean: the named operations over channels (20_memory.md R54), the two port
handshakes (R60, 43_commands.md R204, R205), the schedule (R61) and the reset input (70_reset_and_hazards.md R260).
The block has no memory and no trap (R56, 60_exceptions.md R237), so there is no memory operation and no exception
entry; `raiseTruncated` of Flags.lean is the whole of what the one run-time condition does. -/

namespace Sys2Proof.Machine

/-- `room(C)`: the channel holds fewer tokens than its capacity; always true when unbounded (R14, R54). -/
def room {α : Type} (cap : Option Nat) (c : List α) : Bool :=
  match cap with
  | none => true
  | some n => decide (c.length < n)

/-- `push(C, t)`: `t` becomes the newest token (R14, R54). -/
def push {α : Type} (c : List α) (t : α) : List α := c ++ [t]

/-- `ci_ready` (R60). -/
def State.ciReady (s : State) : Bool := room s.cfg.capCI s.ci

/-- `co_valid` (R60). -/
def State.coValid (s : State) : Bool := !s.co.isEmpty

/-- `co_data`, shown while `co_valid` (R60). -/
def State.coData (s : State) : Option OutputWord := s.co.head?.map outputWord

/-- The event that comes next: the first one fixed, or a free choice where none is fixed (R61, R209). -/
def nextEvent (s : State) : Event :=
  match s.sched with
  | e :: _ => e
  | [] => Config.freeEvent s.tick

/-- The state once the next event has been chosen: the fixed event is used up, or the free choice is drawn. -/
def advance (s : State) : State :=
  match s.sched with
  | _ :: es => { s with sched := es }
  | [] => { s with tick := s.tick + 1 }

/-- The command word crossing port `CI`, if the host has one to send and `ci_ready` is asserted (R60, R204), and the
state in which the host no longer holds it. -/
def fetchCommand (s : State) : Option (PortWord × State) :=
  match s.toSend with
  | [] => none
  | w :: ws => if s.ciReady then some (.cw w, { s with toSend := ws }) else none

/-- The output word crossing port `CO`, if `co_valid` is asserted (R60, R205). -/
def fetchOutput (s : State) : Option (PortWord × State) :=
  match s.coData with
  | none => none
  | some w => some (.ow w, s)

/-- The effect of HOST.PUT, `push(CI, t)` under `room(CI)` (R204); without room the word is not accepted and the host
waits with it. -/
def putCommand (t : CmdTok) (s : State) : State :=
  if s.ciReady then { s with ci := push s.ci t } else s

/-- The effect of HOST.TAKE for the token `t` at the head of `CO`: the host receives it and it is popped (R205).
Where `t` is not the word the block shows, nothing is transferred. -/
def takeOutput (t : OutTok) (s : State) : State :=
  match s.co with
  | [] => s
  | h :: rest => if h = t then { s with co := rest, received := push s.received t } else s

/-- The reset input `rst` (R260): `S0` whatever the state was; the four channels are emptied, `XL` and `XR` hold free
values. The configuration and the host's own records are not the block's and stay. -/
def applyReset (s : State) : State :=
  { s with
    xl := Config.freeXL s.tick
    xr := Config.freeXR s.tick
    vl := false
    act := false
    ph := 0
    err := 0
    acc := 0#8
    cnt := 0
    trunc := false
    ci := []
    cu := []
    cc := []
    co := []
    tick := s.tick + 1 }

end Sys2Proof.Machine
end

