-- ==== Sys2Proof/Machine/Commands.lean ====
section
/-! DEFINITION. Sys2Proof/Machine/Commands.lean: the meanings of the two host commands, SMP and END: the word crosses
port `CI` (HOST.PUT, 43_commands.md R204) and nothing else happens at that moment (R200, R201). -/

namespace Sys2Proof.Machine

/-- SMP x (R200): the token `smp(x)` is appended to `CI`. -/
def execSmp (x : Sample) (s : State) : Host.Outcome State Fault Refusal := .next (putCommand (.smp x) s)

/-- END (R201): the token `end` is appended to `CI`. -/
def execEndRun (s : State) : Host.Outcome State Fault Refusal := .next (putCommand .endRun s)

end Sys2Proof.Machine
end

