-- ==== Sys2Proof/Machine/Outputs.lean ====
section
/-! DEFINITION. Sys2Proof/Machine/Outputs.lean: the meanings of the two output words, DAT and EOR: the word crosses port
`CO` to the host (HOST.TAKE, 43_commands.md R202, R203, R205). The packer pushes them: Packer.lean. -/

namespace Sys2Proof.Machine

/-- DAT b (R202): the host receives the packed byte at the head of `CO`. -/
def execDat (b : Byte) (s : State) : Host.Outcome State Fault Refusal := .next (takeOutput (.dat b) s)

/-- EOR t (R203): the host receives the end of the run's output. -/
def execEor (t : Bool) (s : State) : Host.Outcome State Fault Refusal := .next (takeOutput (.eor t) s)

end Sys2Proof.Machine
end

