-- ==== Sys2Proof/Machine/Dispatch.lean ====
section
/-! DEFINITION. Sys2Proof/Machine/Dispatch.lean: one arm per row of spec/opcode_table.json. -/

namespace Sys2Proof.Machine

def exec (i : Instr) (s : State) : Host.Outcome State Fault Refusal :=
  match i with
  | .smp x => Sys2Proof.Machine.execSmp x s
  | .endRun => Sys2Proof.Machine.execEndRun s
  | .dat b => Sys2Proof.Machine.execDat b s
  | .eor t => Sys2Proof.Machine.execEor t s

end Sys2Proof.Machine
end

