-- ==== Sys2Proof/Machine/Packer.lean ====
section
/-! DEFINITION. Sys2Proof/Machine/Packer.lean: the three steps of the PCK agent (42_packer.md R177 to R179). -/

namespace Sys2Proof.Machine

/-- PCK.SHIFT (R177): the last code of a group also sends the byte. -/
def pckShift (s : State) : Option State :=
  match s.cc with
  | .code q :: rest =>
    let a := shiftIn s.cfg.W s.acc q
    if s.cnt + 1 < codesPerByte s.cfg then some { s with cc := rest, acc := a, cnt := s.cnt + 1 }
    else if room s.cfg.capCO s.co then some { s with cc := rest, co := push s.co (.dat a), acc := 0#8, cnt := 0 }
    else none
  | _ => none

/-- PCK.PAD (R178): the `end` token stays at the head of `CC`. -/
def pckPad (s : State) : Option State :=
  match s.cc with
  | .endRun :: _ =>
    if s.cnt ≠ 0 ∧ room s.cfg.capCO s.co then
      some (raiseTruncated { s with co := push s.co (.dat (padOut s.cfg s.acc s.cnt)), acc := 0#8, cnt := 0 })
    else none
  | _ => none

/-- PCK.EOR (R179): the flag is read into the word, then cleared. -/
def pckEor (s : State) : Option State :=
  match s.cc with
  | .endRun :: rest =>
    if s.cnt = 0 ∧ room s.cfg.capCO s.co then
      some (clearTruncated { s with cc := rest, co := push s.co (.eor s.trunc) })
    else none
  | _ => none

end Sys2Proof.Machine
end

