-- ==== Sys2Proof/Machine/Quantizer.lean ====
section
/-! DEFINITION. Sys2Proof/Machine/Quantizer.lean: the two steps of the QNT agent (41_quantizer.md R144, R145). -/

namespace Sys2Proof.Machine

/-- QNT.STEP (R144): scale, quantize, carry the residual. -/
def qntStep (s : State) : Option State :=
  match s.cu with
  | .val u :: rest =>
    if room s.cfg.capCC s.cc then
      let r := qstep s.cfg.W s.err (scaleValue s.cfg.W u)
      some { s with cu := rest, err := r.2, cc := push s.cc (.code r.1) }
    else none
  | _ => none

/-- QNT.END (R145): the error is cleared at the end of every run. -/
def qntEnd (s : State) : Option State :=
  match s.cu with
  | .endRun :: rest =>
    if room s.cfg.capCC s.cc then some { s with cu := rest, err := 0, cc := push s.cc .endRun } else none
  | _ => none

end Sys2Proof.Machine
end

