-- ==== Sys2Proof/Machine/Upsampler.lean ====
section
/-! DEFINITION. Sys2Proof/Machine/Upsampler.lean: the five steps of the UPS agent (40_upsampler.md R110 to R114), each
as guard and effect: `none` where the guard is false, else the whole effect at once. -/

namespace Sys2Proof.Machine

/-- UPS.FIRST (R110). -/
def upsFirst (s : State) : Option State :=
  match s.act, s.vl, s.ci with
  | false, false, .smp x :: rest => some { s with ci := rest, xl := x, vl := true }
  | _, _, _ => none

/-- UPS.NEXT (R111). -/
def upsNext (s : State) : Option State :=
  match s.act, s.vl, s.ci with
  | false, true, .smp x :: rest => some { s with ci := rest, xr := x, act := true, ph := 0 }
  | _, _, _ => none

/-- The UPS registers after a value is emitted: the next phase, or the end of the span (R112). -/
def nextPhase (s : State) : State :=
  if s.ph + 1 < s.cfg.F then { s with ph := s.ph + 1 }
  else { s with ph := 0, act := false, xl := s.xr }

/-- UPS.EMIT (R112). -/
def upsEmit (s : State) : Option State :=
  if s.act && room s.cfg.capCU s.cu then
    some { nextPhase s with cu := push s.cu (.val (interpValue s.cfg.F s.xl s.xr s.ph)) }
  else none

/-- UPS.TAIL (R113): the `end` token stays at the head of `CI`. -/
def upsTail (s : State) : Option State :=
  match s.act, s.vl, s.ci with
  | false, true, .endRun :: _ => some { s with xr := s.xl, act := true, ph := 0, vl := false }
  | _, _, _ => none

/-- UPS.FWD (R114). -/
def upsFwd (s : State) : Option State :=
  match s.act, s.vl, s.ci with
  | false, false, .endRun :: rest =>
    if room s.cfg.capCU s.cu then some { s with ci := rest, cu := push s.cu .endRun } else none
  | _, _, _ => none

end Sys2Proof.Machine
end

