-- ==== Sys2Proof/Machine/Agents.lean ====
section
/-! DEFINITION. Sys2Proof/Machine/Agents.lean: the step relation of the whole block (43_commands.md R209): the guards of
the twelve steps, and what one event does to a state. -/

namespace Sys2Proof.Machine

/-- The head token of `CI` is a sample. -/
def sampleWaits (s : State) : Bool :=
  match s.ci.head? with
  | some (.smp _) => true
  | _ => false

/-- The head token of `CU` is a value. -/
def valueWaits (s : State) : Bool :=
  match s.cu.head? with
  | some (.val _) => true
  | _ => false

/-- The head token of `CC` is a code. -/
def codeWaits (s : State) : Bool :=
  match s.cc.head? with
  | some (.code _) => true
  | _ => false

/-- The guard of each step, in the words of its rule (R110 to R114, R144, R145, R177 to R179, R204, R205). The reset
input has no guard (R215: "assert reset at any time"). -/
def enabled (e : Event) (s : State) : Bool :=
  match e with
  | .hostPut => !s.toSend.isEmpty && s.ciReady
  | .hostTake => s.coValid
  | .upsFirst => !s.act && sampleWaits s && !s.vl
  | .upsNext => !s.act && sampleWaits s && s.vl
  | .upsEmit => s.act && room s.cfg.capCU s.cu
  | .upsTail => !s.act && s.ci.head? == some .endRun && s.vl
  | .upsFwd => !s.act && s.ci.head? == some .endRun && !s.vl && room s.cfg.capCU s.cu
  | .qntStep => valueWaits s && room s.cfg.capCC s.cc
  | .qntEnd => s.cu.head? == some .endRun && room s.cfg.capCC s.cc
  | .pckShift => codeWaits s && (decide (s.cnt + 1 < codesPerByte s.cfg) || room s.cfg.capCO s.co)
  | .pckPad => s.cc.head? == some .endRun && s.cnt != 0 && room s.cfg.capCO s.co
  | .pckEor => s.cc.head? == some .endRun && s.cnt == 0 && room s.cfg.capCO s.co
  | .rst => true

/-- A word crosses a port: it is decoded and the row's meaning runs; without a word the port waits. -/
def onPort (word : Option (PortWord × State)) (s : State) : Host.Outcome State Fault Refusal :=
  match word with
  | none => .next s
  | some (w, s') =>
    match decode w with
    | .ok i => exec i s'
    | .error r => .refused (.undecodable r)

/-- An internal step is taken where its guard holds; where it does not, the agent waits (R209). -/
def orWait (taken : Option State) (s : State) : Host.Outcome State Fault Refusal :=
  match taken with
  | some s' => .next s'
  | none => .next s

/-- What one event does (R209, R260). -/
def perform (e : Event) (s : State) : Host.Outcome State Fault Refusal :=
  match e with
  | .hostPut => onPort (fetchCommand s) s
  | .hostTake => onPort (fetchOutput s) s
  | .upsFirst => orWait (upsFirst s) s
  | .upsNext => orWait (upsNext s) s
  | .upsEmit => orWait (upsEmit s) s
  | .upsTail => orWait (upsTail s) s
  | .upsFwd => orWait (upsFwd s) s
  | .qntStep => orWait (qntStep s) s
  | .qntEnd => orWait (qntEnd s) s
  | .pckShift => orWait (pckShift s) s
  | .pckPad => orWait (pckPad s) s
  | .pckEor => orWait (pckEor s) s
  | .rst => .next (applyReset s)

/-- The word set where the next fetch of its port finds it, with the event that fetches it: a command word replaces
the next word the host sends (and `CI` has room for it), an output word replaces the word at the head of `CO`. A
word that is no word of the row's port, or that no output token stands for, cannot be placed and changes nothing. -/
def placeWord (s : State) (nbits w : Nat) : State :=
  match tableWord nbits w with
  | none => s
  | some (.cw c) =>
    { s with
      toSend := c :: s.toSend.tail
      ci := if s.ciReady then s.ci else []
      sched := .hostPut :: s.sched.tail }
  | some (.ow o) =>
    match decodeOutput o with
    | .ok (.dat b) => { s with co := .dat b :: s.co.tail, sched := .hostTake :: s.sched.tail }
    | .ok (.eor t) => { s with co := .eor t :: s.co.tail, sched := .hostTake :: s.sched.tail }
    | .ok _ => s
    | .error _ => s

end Sys2Proof.Machine
end

