-- ==== Sys2Proof/Machine/Step.lean ====
section
/-! DEFINITION. Sys2Proof/Machine/Step.lean: one step of the machine, the next event of the schedule (43_commands.md
R209), and the placing of a word where that step fetches it. -/

namespace Sys2Proof.Machine

/-- One step: the next event is chosen and performed. -/
def step (s : State) : Host.Outcome State Fault Refusal := perform (nextEvent s) (advance s)

/-- `s` with the opcode-table word `w` placed so that the very next step fetches and runs it. -/
def State.withFetchWord (s : State) (nbits w : Nat) : State := placeWord s nbits w

end Sys2Proof.Machine
end

