-- ==== Sys2Proof/Machine/Functions.lean ====
section
/-! DEFINITION. Sys2Proof/Machine/Functions.lean: the block as NSA gives it, pure functions over whole sequences:
`interpolate` (40_upsampler.md R106), `scale` (41_quantizer.md R132), `quantize` (R137), `pack` and `unpack`
(42_packer.md R175, R176), and their composition `run` (43_commands.md R206). The streaming machine does not call
them; that it computes them is a theorem to prove (R115, R146, R180, R207). -/

namespace Sys2Proof.Machine

/-- The `F` values of one span (R101, R102). -/
def spanValues (F : Nat) (xl xr : Sample) : List ℚ := (List.range F).map (interpValue F xl xr)

/-- `interpolate(x)` (R106): the spans in order, then the last sample held for `F` values (`TAIL = hold`, R104). -/
def interpolate (F : Nat) : List Sample → List ℚ
  | [] => []
  | [x] => List.replicate F (s16 x : ℚ)
  | x :: y :: rest => spanValues F x y ++ interpolate F (y :: rest)

/-- `scale(us)` (R132). -/
def scale (W : Nat) (us : List ℚ) : List ℚ := us.map (scaleValue W)

/-- `quantize_from(e0, ss)` (R137): the codes and the error after the last. -/
def quantizeFrom (W : Nat) (e : ℚ) : List ℚ → List Nat × ℚ
  | [] => ([], e)
  | s :: ss =>
    let r := qstep W e s
    let rest := quantizeFrom W r.2 ss
    (r.1 :: rest.1, rest.2)

/-- `quantize(ss)` (R137). -/
def quantize (W : Nat) (ss : List ℚ) : List Nat := (quantizeFrom W 0 ss).1

/-- `byte_of([c_0 .. c_(K-1)])`, the sum of `c_m * 2^(W*(K-1-m))` (R172, R175), as a number. -/
def byteSum (W K : Nat) (cs : List Nat) : Nat :=
  ((List.range K).map fun m => cs.getD m 0 * 2 ^ (W * (K - 1 - m))).sum

/-- `byte_of` as the byte it is (R73). -/
def byteOf (W K : Nat) (cs : List Nat) : Byte := BitVec.ofNat 8 (byteSum W K cs)

/-- The codes with the last group filled up with `PADCODE` (R175). -/
def padded (K : Nat) (codes : List Nat) : List Nat :=
  codes ++ List.replicate ((K - codes.length % K) % K) padCode

/-- `pack(codes)` (R175): the bytes, and whether the last group was short. -/
def pack (p : Config.Params) (codes : List Nat) : List Byte × Bool :=
  let K := codesPerByte p
  let all := padded K codes
  ((List.range (all.length / K)).map fun g => byteOf p.W K ((all.drop (g * K)).take K),
    decide (codes.length % K ≠ 0))

/-- `unpack(b)` (R176). -/
def unpack (p : Config.Params) (b : Byte) : List Nat :=
  (List.range (codesPerByte p)).map fun m =>
    (b.toNat >>> (p.W * (codesPerByte p - 1 - m))) &&& mask p.W

/-- The codes of a run (R206 without the packing). -/
def runCodes (p : Config.Params) (xs : List Sample) : List Nat := quantize p.W (scale p.W (interpolate p.F xs))

/-- `run(x)` (R206): the output words of one run. -/
def runOutput (p : Config.Params) (xs : List Sample) : List OutTok :=
  let r := pack p (runCodes p xs)
  r.1.map .dat ++ [.eor r.2]

/-- The output of several runs in a row (R207). -/
def runsOutput (p : Config.Params) (runs : List (List Sample)) : List OutTok := runs.flatMap (runOutput p)

/-- The command words of one run: its samples, then END (R84, R207). -/
def runCommands (xs : List Sample) : List CommandWord :=
  xs.map (fun x => commandWord (.smp x)) ++ [commandWord .endRun]

/-- The command words of several runs in a row. -/
def runsCommands (runs : List (List Sample)) : List CommandWord := runs.flatMap runCommands

/-- `XMAX(W) = floor((HALF - 1) * 65536 / (2^W - 1))`, the largest sample that cannot overload (R141). -/
def xMax (W : Nat) : Int := ((half W : Int) - 1) * 65536 / (mask W : Int)

end Sys2Proof.Machine
end

