-- ==== Sys2Proof/Machine/Text.lean ====
section
/-! DEFINITION. Sys2Proof/Machine/Text.lean: the written form of command and output streams (30_encoding.md R84 to R86).
A text is a list of lines, a line a list of characters. There are no pseudo-instructions (R85). -/

namespace Sys2Proof.Machine

/-- What one line of a command listing says (R84). -/
inductive Line where
  /-- nothing: a blank line or a comment -/
  | blank
  /-- `.config F=<int> W=<int>`: the parameters the listing is meant for -/
  | config (F W : Int)
  /-- `SMP <n>` or `END` -/
  | command (t : CmdTok)
  deriving DecidableEq, Repr

/-- Why a listing does not assemble. -/
inductive TextError where
  /-- the line has none of the forms of R84 -/
  | badLine (line : List Char)
  /-- a configuration line that does not stand at the top of the listing -/
  | misplacedConfig
  deriving DecidableEq, Repr

/-- The text before a `;` (R84: a comment runs to the end of the line). -/
def stripComment (line : List Char) : List Char := line.takeWhile (fun c => c != ';')

/-- A character that separates words. -/
def isBlank (c : Char) : Bool := c == ' ' || c == '\t' || c == '\r'

/-- The words of a line; `cur` is the word being read, last character first. -/
def splitWords (cur : List Char) : List Char → List (List Char)
  | [] => if cur.isEmpty then [] else [cur.reverse]
  | c :: cs =>
    if isBlank c then
      if cur.isEmpty then splitWords [] cs else cur.reverse :: splitWords [] cs
    else splitWords (c :: cur) cs

/-- A decimal numeral without a sign. -/
def readDecimal (ds : List Char) : Option Nat :=
  if !ds.isEmpty && ds.all Char.isDigit then some (Nat.ofDigitChars 10 ds 0) else none

/-- The value of one hexadecimal digit, of either case. -/
def hexDigit (c : Char) : Option Nat :=
  if c.isDigit then some (c.toNat - 48)
  else if 'A' ≤ c ∧ c ≤ 'F' then some (c.toNat - 55)
  else if 'a' ≤ c ∧ c ≤ 'f' then some (c.toNat - 87)
  else none

/-- A hexadecimal numeral, read after the digits of value `acc`. -/
def readHex (acc : Nat) : List Char → Option Nat
  | [] => some acc
  | c :: cs =>
    match hexDigit c with
    | some d => readHex (16 * acc + d) cs
    | none => none

/-- A decimal integer with an optional minus sign. -/
def readInt : List Char → Option Int
  | '-' :: ds => (readDecimal ds).map (fun n => -(n : Int))
  | ds => (readDecimal ds).map (fun n => (n : Int))

/-- The operand of `SMP` (R84): a decimal integer `-32768 .. 32767`, or a hexadecimal word `0x0000 .. 0xFFFF` read
through `s16`. -/
def readSample : List Char → Option Sample
  | '0' :: 'x' :: d :: ds =>
    match readHex 0 (d :: ds) with
    | some v => if v ≤ 0xFFFF then some (BitVec.ofNat 16 v) else none
    | none => none
  | cs =>
    match readInt cs with
    | some n => if -32768 ≤ n ∧ n ≤ 32767 then some (u16 n) else none
    | none => none

/-- One word of the form `<name>=<int>`. -/
def readSetting (name : Char) : List Char → Option Int
  | c :: '=' :: ds => if c = name then readInt ds else none
  | _ => none

/-- One line of a command listing (R84). -/
def readLine (line : List Char) : Except TextError Line :=
  match splitWords [] (stripComment line) with
  | [] => .ok .blank
  | [w] => if w = ['E', 'N', 'D'] then .ok (.command .endRun) else .error (.badLine line)
  | [w, n] =>
    match readSample n with
    | some x => if w = ['S', 'M', 'P'] then .ok (.command (.smp x)) else .error (.badLine line)
    | none => .error (.badLine line)
  | [w, f, v] =>
    match readSetting 'F' f, readSetting 'W' v with
    | some F, some W =>
      if w = ['.', 'c', 'o', 'n', 'f', 'i', 'g'] then .ok (.config F W) else .error (.badLine line)
    | _, _ => .error (.badLine line)
  | _ => .error (.badLine line)

/-- The command words of a listing (R84): a configuration line assembles to nothing and stands only before everything
else (`top`). -/
def assembleFrom (top : Bool) : List (List Char) → Except TextError (List CommandWord)
  | [] => .ok []
  | l :: ls =>
    match readLine l with
    | .error e => .error e
    | .ok .blank => assembleFrom top ls
    | .ok (.config _ _) => if top then assembleFrom false ls else .error .misplacedConfig
    | .ok (.command t) =>
      match assembleFrom false ls with
      | .ok ws => .ok (commandWord t :: ws)
      | .error e => .error e

/-- The assembler of R84. -/
def assemble (listing : List (List Char)) : Except TextError (List CommandWord) := assembleFrom true listing

/-- A signed decimal integer. -/
def writeInt (n : Int) : List Char :=
  if n < 0 then '-' :: Nat.toDigits 10 n.natAbs else Nat.toDigits 10 n.natAbs

/-- A command as a line (R84). -/
def writeCommand : CmdTok → List Char
  | .smp x => ['S', 'M', 'P', ' '] ++ writeInt (s16 x)
  | .endRun => ['E', 'N', 'D']

/-- One hexadecimal digit, upper case. -/
def writeHexDigit (n : Nat) : Char :=
  if n < 10 then Char.ofNat (48 + n) else Char.ofNat (55 + n)

/-- An output word as a line (R86): `DAT 0x<hh>` with two hexadecimal digits, `EOR trunc=<0|1>`. -/
def writeOutput : OutTok → List Char
  | .dat b => ['D', 'A', 'T', ' ', '0', 'x', writeHexDigit (b.toNat / 16), writeHexDigit (b.toNat % 16)]
  | .eor t => ['E', 'O', 'R', ' ', 't', 'r', 'u', 'n', 'c', '='] ++ [if t then '1' else '0']

end Sys2Proof.Machine
end

