-- ==== Sys2Proof/WellFormed.lean ====
section
/-! DEFINITION. Sys2Proof/WellFormed.lean: which rows a block of a given configuration can carry on its ports. Every
command is well formed (30_encoding.md R82); an output byte is well formed when the `8 - K*W` bits above its codes
are zero (R73, 42_packer.md R172). Ill-formed configurations cannot be written down (`Config.Params`). -/

namespace Sys2Proof

/-- The check. A DAT of a block with `K*W < 8` never has an upper bit set (R73). -/
def WellFormed (p : Config.Params) : Instr → Bool
  | .smp _ => true
  | .endRun => true
  | .dat b => b.toNat < 2 ^ (p.W * Machine.codesPerByte p)
  | .eor _ => true

end Sys2Proof
end

