-- ==== Sys2Proof/Safety.lean ====
section
/-! DEFINITION. Sys2Proof/Safety.lean: the terms claims about runs of the machine are made in: the invariants of
10_state.md R33, the idle and the quiescent states of 43_commands.md R210 and 00_scope.md R16, and equality of states
up to the contents of `XL` and `XR` that nothing reads. -/

namespace Sys2Proof.Machine

/-- The ten internal steps of the three agents (30_encoding.md R80). -/
def blockSteps : List Event :=
  [.upsFirst, .upsNext, .upsEmit, .upsTail, .upsFwd, .qntStep, .qntEnd, .pckShift, .pckPad, .pckEor]

/-- The steps of the UPS agent (40_upsampler.md Part 2). -/
def upsSteps : List Event := [.upsFirst, .upsNext, .upsEmit, .upsTail, .upsFwd]

/-- The steps of the QNT agent (41_quantizer.md Part 3). -/
def qntSteps : List Event := [.qntStep, .qntEnd]

/-- The steps of the PCK agent (42_packer.md Part 2). -/
def pckSteps : List Event := [.pckShift, .pckPad, .pckEor]

/-- No agent other than the host has an enabled step (R16). -/
def Quiescent (s : State) : Prop := ∀ e ∈ blockSteps, enabled e s = false

/-- Nothing at all can happen but a reset: the block is quiescent, the host has nothing it can send and nothing to
take. -/
def Drained (s : State) : Prop := ∀ e : Event, e ≠ .rst → enabled e s = false

/-- The block's state is the reset state up to `XL` and `XR` (R210, 70_reset_and_hazards.md R262). -/
def BlockIdle (s : State) : Prop :=
  s.vl = false ∧ s.act = false ∧ s.ph = 0 ∧ s.err = 0 ∧ s.acc = 0#8 ∧ s.cnt = 0 ∧ s.trunc = false ∧
    s.ci = [] ∧ s.cu = [] ∧ s.cc = [] ∧ s.co = []

/-- The events of `evs` are performed one after another by the machine itself: the schedule is set to `evs` and the
machine takes that many steps. -/
def runSchedule (evs : List Event) (s : State) : Host.Outcome State Fault Refusal :=
  Sys2Proof.core.run evs.length { s with sched := evs }

/-- A channel holds at most its capacity (R54). -/
def Fits {α : Type} (cap : Option Nat) (c : List α) : Prop := ∀ n, cap = some n → c.length ≤ n

/-- A token of `CU`: an upsampled value is a multiple of `1/F` in the range of a sample (R51). -/
def ValueInRange (F : Nat) : ValTok → Prop
  | .val u => (∃ U : ℤ, u * F = U) ∧ -32768 ≤ u ∧ u ≤ 32767
  | .endRun => True

/-- A token of `CC`: a code has `W` bits (R52). -/
def CodeInRange (W : Nat) : CodeTok → Prop
  | .code q => q ≤ mask W
  | .endRun => True

/-- The invariants of R33 (b) to (f), of the token types (R51 to R53, R73), of the capacities (R54), and the sign of
`ERR` inside the block (R142). Part (a) of R33 is about what is read and is said by `SameButDead` below. -/
structure Inv (s : State) : Prop where
  phase_active : s.ph ≠ 0 → s.act = true
  phase_lt : s.ph < s.cfg.F
  count_lt : s.cnt < codesPerByte s.cfg
  acc_lt : s.acc.toNat < 2 ^ (s.cfg.W * s.cnt)
  err_multiple : ∃ E : ℤ, s.err * denom s.cfg.F = E
  err_nonneg : 0 ≤ s.err
  trunc_reported : s.trunc = true → s.cc.head? = some .endRun ∧ s.cnt = 0
  values : ∀ t ∈ s.cu, ValueInRange s.cfg.F t
  codes : ∀ t ∈ s.cc, CodeInRange s.cfg.W t
  outputs : ∀ t ∈ s.co, WellFormed s.cfg (outRow t) = true
  fits : Fits s.cfg.capCI s.ci ∧ Fits s.cfg.capCU s.cu ∧ Fits s.cfg.capCC s.cc ∧ Fits s.cfg.capCO s.co

/-- Two states that agree in everything but the contents of a sample register that nothing will read: `XL` matters
only when `VL = 1` or `ACT = 1`, `XR` only when `ACT = 1` (R33 (a)). -/
def SameButDead (s t : State) : Prop :=
  t = { s with xl := t.xl, xr := t.xr } ∧
    (s.vl = true ∨ s.act = true → t.xl = s.xl) ∧ (s.act = true → t.xr = s.xr)

/-- A scaled value in the no-wrap range of R141. -/
def NoWrap (W : Nat) (s : ℚ) : Prop := -(half W : ℚ) ≤ s ∧ s ≤ (half W : ℚ) - 1

/-- The no-overload invariant of R141: `ERR` is a fraction, and every sample anywhere in the machine or still to be
sent is at most `XMAX(W)`, every value in `CU` scales into the no-wrap range. -/
structure NoOverload (s : State) : Prop where
  err_fraction : 0 ≤ s.err ∧ s.err < 1
  phase_lt : s.ph < s.cfg.F
  left : s.vl = true ∨ s.act = true → s16 s.xl ≤ xMax s.cfg.W
  right : s.act = true → s16 s.xr ≤ xMax s.cfg.W
  commands : ∀ x, CmdTok.smp x ∈ s.ci → s16 x ≤ xMax s.cfg.W
  toCome : ∀ w ∈ s.toSend, ∀ x, decodeCommand w = .smp x → s16 x ≤ xMax s.cfg.W
  values : ∀ u, ValTok.val u ∈ s.cu → NoWrap s.cfg.W (scaleValue s.cfg.W u)

/-- The UPS steps for a run of `n` samples (70_reset_and_hazards.md R273): FIRST, then for every later sample NEXT and
`F` EMIT, then TAIL, `F` EMIT and FWD; a run of no samples is FWD alone. -/
def upsSchedule (F : Nat) : Nat → List Event
  | 0 => [.upsFwd]
  | n + 1 =>
    .upsFirst :: (List.replicate n (.upsNext :: List.replicate F .upsEmit)).flatten ++
      .upsTail :: List.replicate F .upsEmit ++ [.upsFwd]

/-- The QNT steps for `n` values and the end of the run. -/
def qntSchedule (n : Nat) : List Event := List.replicate n .qntStep ++ [.qntEnd]

/-- The PCK steps for `n` codes and the end of the run: the pad only where the last group is short. -/
def pckSchedule (K n : Nat) : List Event :=
  List.replicate n .pckShift ++ (if n % K = 0 then [] else [.pckPad]) ++ [.pckEor]

/-- How one event may move a channel: only a producer adds a token, as the newest; only a consumer removes one, the
oldest; nothing is reordered, duplicated or altered (R54, R59). -/
def MovesOnly {α : Type} (producers consumers : List Event) (e : Event) (before after : List α) : Prop :=
  after = before ∨ (e ∈ producers ∧ ∃ x, after = before ++ [x]) ∨ (e ∈ consumers ∧ ∃ x, before = x :: after)

end Sys2Proof.Machine
end

