-- ==== Sys2Proof/Certificates/Slice0/Obligations.lean ====
section
/-! DEFINITION. Sys2Proof/Certificates/Slice0/Obligations.lean: the statements for the provers, made from the numbered
rules of spec/. They are listed, with their rules and quotes, in OBLIGATIONS.json. -/

open Sys2Proof Sys2Proof.Machine

/-! ### Words of the two ports -/

/-- Eight words of 95_test_vectors.md 2.1 stand for the rows written there (R75, R76, R78, R79). Two parts are the
model's choice: that the never emitted words `0x102` and `0x1FF` are refused, although the host reading of R77 would
decode them (DEDUCED, notes/assumptions/9.md), and that the width of 16 or 24 bits says which port a word is laid on
(DESIGN CHOICE, notes/assumptions/10.md). -/
def Obligations.TableWordsDecodeToTheirRows : Prop :=
  decodeTableWord 24 0x00064 = some (.smp 100#16) ∧
  decodeTableWord 24 0x0FF9C = some (.smp 0xFF9C#16) ∧ s16 0xFF9C#16 = -100 ∧
  decodeTableWord 24 0x08000 = some (.smp 0x8000#16) ∧ s16 0x8000#16 = -32768 ∧
  decodeTableWord 24 0x10000 = some .endRun ∧ decodeTableWord 24 0x1ABCD = some .endRun ∧
  decodeTableWord 16 0x083 = some (.dat 0x83#8) ∧
  decodeTableWord 16 0x100 = some (.eor false) ∧ decodeTableWord 16 0x101 = some (.eor true) ∧
  decodeTableWord 16 0x102 = none ∧ decodeTableWord 16 0x1FF = none

/-- Decoding inverts encoding for every row and every operand (every row is well formed for some configuration, a DAT
with all its bits for `W = 8`, and no bit of an encoding depends on the configuration, R83); and a word that decodes is
the canonical word of its row, but for the ignored operand bits of END (R74 to R79). That the output words
`0x102 .. 0x1FF` do not decode, so that the second part asks nothing of them, is the model's choice (DEDUCED,
notes/assumptions/9.md). -/
def Obligations.DecodeAndEncodeAgree : Prop :=
  (∀ i : Instr, decode (encode i) = .ok i) ∧
  (∀ (w : PortWord) (i : Instr), decode w = .ok i →
    encode i = w ∨ (i = .endRun ∧ ∃ c, w = .cw c ∧ c.getLsbD 16 = true))

/-- The opcode maps of both ports, word by word, and the words `0x102 .. 0x1FF` are never shown by the block (R81, R79).
That `decode` refuses those words by name is the model's choice (DEDUCED from R79 and R82, notes/assumptions/9.md): R81
says only that they are never emitted, and the host reading of R77 would decode them. -/
def Obligations.OpcodeMapsOfBothPorts : Prop :=
  (∀ w : CommandWord,
    (w.toNat ≤ 0x0FFFF → decode (.cw w) = .ok (.smp (BitVec.ofNat 16 w.toNat))) ∧
    (0x10000 ≤ w.toNat → decode (.cw w) = .ok .endRun)) ∧
  (∀ w : OutputWord,
    (w.toNat ≤ 0x0FF → decode (.ow w) = .ok (.dat (BitVec.ofNat 8 w.toNat))) ∧
    (w.toNat = 0x100 → decode (.ow w) = .ok (.eor false)) ∧
    (w.toNat = 0x101 → decode (.ow w) = .ok (.eor true)) ∧
    (0x102 ≤ w.toNat → decode (.ow w) = .error (.neverEmitted w))) ∧
  (∀ (s : State) (w : OutputWord), s.coData = some w → w.toNat ≤ 0x101)

/-- The sample read from a word and the word of a sample are inverse, and every word is a sample (R12, R70). -/
def Obligations.SampleWordsAreTwosComplement : Prop :=
  (∀ v : Sample, -32768 ≤ s16 v ∧ s16 v ≤ 32767 ∧ u16 (s16 v) = v) ∧
  (∀ x : Int, -32768 ≤ x → x ≤ 32767 → s16 (u16 x) = x ∧ ((u16 x).toNat : Int) = x % 65536)

/-- The host's own reading of a word (R77) gives back every token the block shows, and agrees with the decoder on
every word the decoder reads; that the decoder refuses the words which the reading would still accept is the model's
choice (DEDUCED, notes/assumptions/9.md). -/
def Obligations.HostReadsWhatTheBlockShows : Prop :=
  (∀ t : OutTok, hostRead (outputWord t) = t) ∧
  (∀ (w : OutputWord) (i : Instr), decode (.ow w) = .ok i → outRow (hostRead w) = i)

/-- The assembler gives back every command from its written form, and a listing of commands assembles to their
canonical words in order (R84; the written form is the model's rendering of it, notes/assumptions/12.md). -/
def Obligations.AssemblerReadsWrittenCommands : Prop :=
  (∀ t : CmdTok, readLine (writeCommand t) = .ok (.command t)) ∧
  (∀ ts : List CmdTok, assemble (ts.map writeCommand) = .ok (ts.map commandWord))

/-! ### Configuration and reset -/

/-- R10, R231: a block is built exactly for a legal configuration, with the parameters asked for; an illegal `F` or `W` is
the ConfigurationError. That this is so where a capacity is 0 as well is the model's choice: the spec names no error for such
a capacity, and the model looks at the capacities last (DESIGN CHOICE, notes/assumptions/16.md). -/
def Obligations.OnlyLegalConfigurationsAreBuilt : Prop :=
  ∀ (F W : Nat) (capCI capCU capCC capCO : Option Nat),
    ((¬ (1 ≤ F ∧ 1 ≤ W ∧ W ≤ 8)) → Config.build F W capCI capCU capCC capCO = .error .configuration) ∧
    (∀ p, Config.build F W capCI capCU capCC capCO = .ok p →
      p.F = F ∧ p.W = W ∧ p.capCI = capCI ∧ p.capCU = capCU ∧ p.capCC = capCC ∧ p.capCO = capCO) ∧
    (1 ≤ F ∧ 1 ≤ W ∧ W ≤ 8 → capCI ≠ some 0 → capCU ≠ some 0 → capCC ≠ some 0 → capCO ≠ some 0 →
      ∃ p, Config.build F W capCI capCU capCC capCO = .ok p)

/-- R8: what the derived constants are, for every legal width: `K` codes fit into a byte and no more, `HALF` is half the
code range, `MASK` its top, `G` the gain; and the row of the default width. -/
def Obligations.DerivedConstantsOfEveryWidth : Prop :=
  ∀ p : Config.Params,
    1 ≤ codesPerByte p ∧ p.W * codesPerByte p ≤ 8 ∧ 8 < p.W * (codesPerByte p + 1) ∧
    2 * half p.W = 2 ^ p.W ∧ mask p.W + 1 = 2 ^ p.W ∧ gain p.W * 65536 = mask p.W ∧ denom p.F = p.F * 65536 ∧
    (p.W = 4 → codesPerByte p = 2 ∧ half p.W = 8 ∧ mask p.W = 15 ∧ gain p.W = 15 / 65536)

/-- R261: what reset leaves in every element whose reset value the spec gives, and what the two ports then show. -/
def Obligations.ResetLeavesTheStatedValues : Prop :=
  let s := State.reset
  s.err = 0 ∧ s.vl = false ∧ s.act = false ∧ s.ph = 0 ∧ s.acc = 0#8 ∧ s.cnt = 0 ∧ s.trunc = false ∧
    s.ci = [] ∧ s.cu = [] ∧ s.cc = [] ∧ s.co = [] ∧ s.ciReady = true ∧ s.coValid = false

/-- R260: the reset input gives the reset state whatever the state was, discarding all tokens; `XL` and `XR` may hold
anything. That the counter of free values advances and that the host's own records and the configuration stay is the model's
choice (notes/assumptions/3.md, notes/assumptions/4.md). -/
def Obligations.ResetInputGivesTheResetState : Prop :=
  ∀ s : State, nextEvent s = .rst → ∃ xl xr : Sample,
    step s = .next { advance s with
      xl := xl, xr := xr, vl := false, act := false, ph := 0, err := 0, acc := 0#8, cnt := 0, trunc := false,
      ci := [], cu := [], cc := [], co := [], tick := (advance s).tick + 1 }

/-! ### The four rows, and the two host steps -/

/-- SMP x runs to completion where port `CI` accepts a word: the token `smp(x)` is the newest of `CI` and nothing else
changes (R200, R204). That `exec` of the row is this transfer is the model's choice
(DESIGN CHOICE, notes/assumptions/6.md). -/
def Obligations.SmpAppendsItsSample : Prop :=
  ∀ (x : Sample) (s : State), s.ciReady = true → exec (.smp x) s = .next { s with ci := s.ci ++ [.smp x] }

/-- END runs to completion where port `CI` accepts a word: the token `end` is the newest of `CI` and nothing else changes
(R201, R204). That `exec` of the row is this transfer is the model's choice
(DESIGN CHOICE, notes/assumptions/6.md). -/
def Obligations.EndAppendsItsToken : Prop :=
  ∀ s : State, s.ciReady = true → exec .endRun s = .next { s with ci := s.ci ++ [.endRun] }

/-- DAT b runs to completion where it is the word the block shows: the host receives it, it is popped, and nothing else
changes (R202, R205). That `exec` of the row is this transfer is the model's choice
(DESIGN CHOICE, notes/assumptions/6.md). -/
def Obligations.DatIsTakenByTheHost : Prop :=
  ∀ (b : Byte) (rest : List OutTok) (s : State), s.co = .dat b :: rest →
    exec (.dat b) s = .next { s with co := rest, received := s.received ++ [.dat b] }

/-- EOR t runs to completion where it is the word the block shows: the host receives it, it is popped, and nothing else
changes; the block's own `TRUNC` is not touched (R203, R205). That `exec` of the row is this transfer is the model's choice
(DESIGN CHOICE, notes/assumptions/6.md). -/
def Obligations.EorIsTakenByTheHost : Prop :=
  ∀ (b : Bool) (rest : List OutTok) (s : State), s.co = .eor b :: rest →
    exec (.eor b) s = .next { s with co := rest, received := s.received ++ [.eor b] }

/-- A full `CI` accepts no command and a word that `CO` does not show is not transferred: nothing changes (R60, R204,
R205; that `exec` then answers the same state is the model's choice, notes/assumptions/6.md). -/
def Obligations.PortsWaitWithoutAHandshake : Prop :=
  (∀ (x : Sample) (s : State), s.ciReady = false → exec (.smp x) s = .next s ∧ exec .endRun s = .next s) ∧
  (∀ (b : Byte) (s : State), s.co.head? ≠ some (.dat b) → exec (.dat b) s = .next s) ∧
  (∀ (t : Bool) (s : State), s.co.head? ≠ some (.eor t) → exec (.eor t) s = .next s)

/-- A step at a port runs the row its word decodes to: on port `CI` the host's next word, which the host then no longer
holds; on port `CO` the word shown. What step adds around `exec` is `advance`, the use of the chosen event (the
model's own, notes/assumptions/2.md). -/
def Obligations.StepRunsTheDecodedWord : Prop :=
  (∀ (s : State) (w : CommandWord) (ws : List CommandWord) (i : Instr), nextEvent s = .hostPut →
    s.toSend = w :: ws → s.ciReady = true → decode (.cw w) = .ok i →
    step s = exec i { advance s with toSend := ws }) ∧
  (∀ (s : State) (w : OutputWord) (i : Instr), nextEvent s = .hostTake → s.coData = some w →
    decode (.ow w) = .ok i → step s = exec i (advance s))

/-- R204, HOST.PUT: under `room(CI)` the word the host sends is decoded and its token pushed; the block cannot refuse
it. Without room, or without a word, nothing moves. -/
def Obligations.HostPutPushesTheDecodedCommand : Prop :=
  ∀ s : State, nextEvent s = .hostPut →
    (∀ w ws, s.toSend = w :: ws → room s.cfg.capCI s.ci = true → ∃ c : CmdTok,
      decode (.cw w) = .ok (cmdRow c) ∧ step s = .next { advance s with toSend := ws, ci := s.ci ++ [c] }) ∧
    (s.toSend = [] ∨ room s.cfg.capCI s.ci = false → step s = .next (advance s))

/-- R205, HOST.TAKE: where `CO` is not empty the host receives its head, which is popped. Where it is empty nothing
moves. -/
def Obligations.HostTakePopsTheHead : Prop :=
  ∀ s : State, nextEvent s = .hostTake →
    (∀ t rest, s.co = t :: rest →
      step s = .next { advance s with co := rest, received := s.received ++ [t] }) ∧
    (s.co = [] → step s = .next (advance s))

/-! ### The steps of the Upsampler -/

/-- R110, UPS.FIRST: guard, whole effect, and waiting where the guard fails. -/
def Obligations.UpsFirstTakesTheFirstSample : Prop :=
  ∀ s : State, nextEvent s = .upsFirst →
    (∀ x rest, s.act = false → s.ci = .smp x :: rest → s.vl = false →
      step s = .next { advance s with ci := rest, xl := x, vl := true }) ∧
    (s.act = true ∨ (∀ x rest, s.ci ≠ .smp x :: rest) ∨ s.vl = true → step s = .next (advance s))

/-- R111, UPS.NEXT: guard, whole effect, waiting; and while `ACT = 1` no UPS step takes a command from `CI`. -/
def Obligations.UpsNextOpensASpan : Prop :=
  (∀ s : State, nextEvent s = .upsNext →
    (∀ x rest, s.act = false → s.ci = .smp x :: rest → s.vl = true →
      step s = .next { advance s with ci := rest, xr := x, act := true, ph := 0 }) ∧
    (s.act = true ∨ (∀ x rest, s.ci ≠ .smp x :: rest) ∨ s.vl = false → step s = .next (advance s))) ∧
  (∀ s t : State, nextEvent s ∈ upsSteps → s.act = true → step s = .next t → t.ci = s.ci)

/-- R112, UPS.EMIT: the value pushed is computed from the registers before the step; the phase advances, or the span
ends and `XL` takes the right endpoint; the numerator never leaves its range. -/
def Obligations.UpsEmitPushesTheInterpolatedValue : Prop :=
  ∀ s : State, nextEvent s = .upsEmit →
    (s.act = true → room s.cfg.capCU s.cu = true →
      let u : ℚ := (((s.cfg.F : ℚ) - s.ph) * s16 s.xl + s.ph * s16 s.xr) / s.cfg.F
      step s = .next (if s.ph + 1 < s.cfg.F then { advance s with cu := s.cu ++ [.val u], ph := s.ph + 1 }
        else { advance s with cu := s.cu ++ [.val u], ph := 0, act := false, xl := s.xr })) ∧
    (s.act = false ∨ room s.cfg.capCU s.cu = false → step s = .next (advance s)) ∧
    (s.ph < s.cfg.F → |((s.cfg.F : Int) - s.ph) * s16 s.xl + s.ph * s16 s.xr| ≤ 32768 * s.cfg.F)

/-- R113, UPS.TAIL: the span emitter is started with both endpoints equal to the last sample; `end` is not consumed. -/
def Obligations.UpsTailHoldsTheLastSample : Prop :=
  ∀ s : State, nextEvent s = .upsTail →
    (∀ rest, s.act = false → s.ci = .endRun :: rest → s.vl = true →
      step s = .next { advance s with xr := s.xl, act := true, ph := 0, vl := false }) ∧
    (s.act = true ∨ (∀ rest, s.ci ≠ .endRun :: rest) ∨ s.vl = false → step s = .next (advance s))

/-- R114, UPS.FWD: `end` is passed on. -/
def Obligations.UpsFwdPassesTheEndOn : Prop :=
  ∀ s : State, nextEvent s = .upsFwd →
    (∀ rest, s.act = false → s.ci = .endRun :: rest → s.vl = false → room s.cfg.capCU s.cu = true →
      step s = .next { advance s with ci := rest, cu := s.cu ++ [.endRun] }) ∧
    (s.act = true ∨ (∀ rest, s.ci ≠ .endRun :: rest) ∨ s.vl = true ∨ room s.cfg.capCU s.cu = false →
      step s = .next (advance s))

/-! ### The steps of the Quantizer -/

/-- R144, QNT.STEP: the value is scaled by `G`, the carried error added, the sum floored and wrapped modulo `2^W`, the
residual carried forward and the code pushed, for any value and any error. -/
def Obligations.QntStepQuantizesOneValue : Prop :=
  ∀ s : State, nextEvent s = .qntStep →
    (∀ u rest, s.cu = .val u :: rest → room s.cfg.capCC s.cc = true →
      ∃ (v : ℚ) (Q : Int) (q : Nat),
        v = ((2 : ℚ) ^ s.cfg.W - 1) / 65536 * u + s.err ∧
        (Q : ℚ) ≤ v + half s.cfg.W ∧ v + half s.cfg.W < (Q : ℚ) + 1 ∧
        (q : Int) = Q % 2 ^ s.cfg.W ∧
        step s = .next { advance s with
          cu := rest, err := v - ((q : ℚ) - half s.cfg.W), cc := s.cc ++ [.code q] }) ∧
    ((∀ u rest, s.cu ≠ .val u :: rest) ∨ room s.cfg.capCC s.cc = false → step s = .next (advance s))

/-- R145, QNT.END: the error is cleared and `end` is passed on. -/
def Obligations.QntEndClearsTheError : Prop :=
  ∀ s : State, nextEvent s = .qntEnd →
    (∀ rest, s.cu = .endRun :: rest → room s.cfg.capCC s.cc = true →
      step s = .next { advance s with cu := rest, err := 0, cc := s.cc ++ [.endRun] }) ∧
    ((∀ rest, s.cu ≠ .endRun :: rest) ∨ room s.cfg.capCC s.cc = false → step s = .next (advance s))

/-! ### The steps of the Packer -/

/-- R177, PCK.SHIFT: a code that does not complete its group goes into `ACC` and needs no room; one that does sends the
byte. Where `ACC` holds only the codes received, the mask `& 0xFF` removes no set bit. -/
def Obligations.PckShiftPacksOneCode : Prop :=
  ∀ s : State, nextEvent s = .pckShift →
    (∀ q rest, s.cc = .code q :: rest →
      let a : Byte := BitVec.ofNat 8 ((s.acc.toNat <<< s.cfg.W) ||| q)
      (s.cnt + 1 < codesPerByte s.cfg →
        step s = .next { advance s with cc := rest, acc := a, cnt := s.cnt + 1 }) ∧
      (codesPerByte s.cfg ≤ s.cnt + 1 → room s.cfg.capCO s.co = true →
        step s = .next { advance s with cc := rest, co := s.co ++ [.dat a], acc := 0#8, cnt := 0 }) ∧
      (codesPerByte s.cfg ≤ s.cnt + 1 → room s.cfg.capCO s.co = false → step s = .next (advance s)) ∧
      (s.cnt < codesPerByte s.cfg → s.acc.toNat < 2 ^ (s.cfg.W * s.cnt) → q ≤ mask s.cfg.W →
        a.toNat = s.acc.toNat * 2 ^ s.cfg.W + q)) ∧
    ((∀ q rest, s.cc ≠ .code q :: rest) → step s = .next (advance s))

/-- R178, PCK.PAD: a short last group is shifted up as if zero codes followed, its byte sent and `TRUNC` set; `end` is not
consumed; never where `K = 1` and a group cannot be open. -/
def Obligations.PckPadCompletesAShortGroup : Prop :=
  ∀ s : State, nextEvent s = .pckPad →
    (∀ rest, s.cc = .endRun :: rest → s.cnt ≠ 0 → room s.cfg.capCO s.co = true →
      step s = .next { advance s with
        co := s.co ++ [.dat (BitVec.ofNat 8 (s.acc.toNat <<< (s.cfg.W * (codesPerByte s.cfg - s.cnt))))]
        acc := 0#8, cnt := 0, trunc := true }) ∧
    ((∀ rest, s.cc ≠ .endRun :: rest) ∨ s.cnt = 0 ∨ room s.cfg.capCO s.co = false → step s = .next (advance s))

/-- R179, PCK.EOR: the end of the run is sent with the run's flag, which is then cleared. -/
def Obligations.PckEorReportsTheFlag : Prop :=
  ∀ s : State, nextEvent s = .pckEor →
    (∀ rest, s.cc = .endRun :: rest → s.cnt = 0 → room s.cfg.capCO s.co = true →
      step s = .next { advance s with cc := rest, co := s.co ++ [.eor s.trunc], trunc := false }) ∧
    ((∀ rest, s.cc ≠ .endRun :: rest) ∨ s.cnt ≠ 0 ∨ room s.cfg.capCO s.co = false → step s = .next (advance s))

/-! ### The whole machine: stops, guards, ownership, order -/

/-- R209, R234: no step faults and no step is refused, in any state. -/
def Obligations.EveryStepAnswersANextState : Prop := ∀ s : State, ∃ t : State, step s = .next t

/-- R209: the guards are exactly when a step moves: where a step's guard is false it changes nothing, where it is true it
changes something. -/
def Obligations.GuardsAreExact : Prop :=
  ∀ (e : Event) (s : State), e ≠ .rst →
    (enabled e s = false → perform e s = .next s) ∧ (enabled e s = true → ∃ t, perform e s = .next t ∧ t ≠ s)

/-- In every state at most one step of each agent is enabled (Part 2 of 40_upsampler.md and 42_packer.md, Part 3 of
41_quantizer.md). -/
def Obligations.AtMostOneStepPerAgent : Prop :=
  ∀ (s : State) (a b : Event), enabled a s = true → enabled b s = true →
    (a ∈ upsSteps ∧ b ∈ upsSteps ∨ a ∈ qntSteps ∧ b ∈ qntSteps ∨ a ∈ pckSteps ∧ b ∈ pckSteps) → a = b

/-- R20, R61: what each agent may touch, in every state: everything else is unchanged. The configuration, which no
event changes (R7, R215), and the schedule are in the frame of all of them. -/
def Obligations.EachAgentTouchesOnlyItsOwn : Prop :=
  ∀ (e : Event) (s t : State), perform e s = .next t →
    (e ∈ upsSteps → t = { s with
      xl := t.xl, xr := t.xr, vl := t.vl, act := t.act, ph := t.ph, ci := t.ci, cu := t.cu }) ∧
    (e ∈ qntSteps → t = { s with err := t.err, cu := t.cu, cc := t.cc }) ∧
    (e ∈ pckSteps → t = { s with acc := t.acc, cnt := t.cnt, trunc := t.trunc, cc := t.cc, co := t.co }) ∧
    (e = .hostPut → t = { s with toSend := t.toSend, ci := t.ci }) ∧
    (e = .hostTake → t = { s with co := t.co, received := t.received }) ∧
    t.cfg = s.cfg ∧ t.sched = s.sched

/-- R54, R59: one producer and one consumer per channel, first in first out, one token at a time: nothing is reordered,
duplicated, dropped or altered. -/
def Obligations.ChannelsAreFirstInFirstOut : Prop :=
  ∀ (e : Event) (s t : State), e ≠ .rst → perform e s = .next t →
    MovesOnly [.hostPut] [.upsFirst, .upsNext, .upsFwd] e s.ci t.ci ∧
    MovesOnly [.upsEmit, .upsFwd] [.qntStep, .qntEnd] e s.cu t.cu ∧
    MovesOnly [.qntStep, .qntEnd] [.pckShift, .pckEor] e s.cc t.cc ∧
    MovesOnly [.pckShift, .pckPad, .pckEor] [.hostTake] e s.co t.co

/-- R28: `TRUNC` is set by PCK.PAD, cleared by PCK.EOR (and by the reset input, R260), and changed by nothing else. -/
def Obligations.OnlyPadAndEorChangeTrunc : Prop :=
  ∀ (e : Event) (s t : State), perform e s = .next t → t.trunc ≠ s.trunc →
    (e = .pckPad ∧ t.trunc = true) ∨ (e = .pckEor ∧ t.trunc = false) ∨ (e = .rst ∧ t.trunc = false)

/-- R61, R62: two different enabled steps do not disturb each other: each stays enabled after the other, and the two
orders lead to the same state. -/
def Obligations.EnabledStepsCommute : Prop :=
  ∀ (s : State) (a b : Event), a ≠ b → a ≠ .rst → b ≠ .rst → enabled a s = true → enabled b s = true →
    ∃ sa sb t, perform a s = .next sa ∧ perform b s = .next sb ∧
      enabled b sa = true ∧ enabled a sb = true ∧ perform b sa = .next t ∧ perform a sb = .next t

/-- R62: determinacy. From any state, all schedules without a reset that end with nothing left to do end in one and the
same state, what the host received included. -/
def Obligations.EveryScheduleEndsInOneState : Prop :=
  ∀ (s t₁ t₂ : State) (evs₁ evs₂ : List Event), .rst ∉ evs₁ → .rst ∉ evs₂ →
    runSchedule evs₁ s = .next t₁ → runSchedule evs₂ s = .next t₂ → Drained t₁ → Drained t₂ → t₁ = t₂

/-- R216: no deadlock. A word to take can be taken; and while a token is in `CI`, `CU` or `CC`, or a span is being emitted,
some block step is enabled or the host can take a word. -/
def Obligations.NoDeadlock : Prop :=
  ∀ s : State,
    (s.co ≠ [] → enabled .hostTake s = true) ∧
    (s.ci ≠ [] ∨ s.cu ≠ [] ∨ s.cc ≠ [] ∨ s.act = true → ∃ e ∈ .hostTake :: blockSteps, enabled e s = true)

/-- R216, R273: every execution on a finite command stream is finite: one measure of states falls at every step taken, and
on a block in its reset state it is bounded by the number of commands still to be sent and by `F`. -/
def Obligations.EveryExecutionIsFinite : Prop :=
  ∃ (m : State → Nat) (bound : Nat → Nat → Nat),
    (∀ (e : Event) (s t : State), e ≠ .rst → enabled e s = true → perform e s = .next t → m t < m s) ∧
    (∀ s : State, BlockIdle s → m s ≤ bound s.toSend.length s.cfg.F)

/-- R207, R216: from every state some schedule without a reset does everything there is to do. -/
def Obligations.EveryStateCanBeDrained : Prop :=
  ∀ s : State, ∃ (evs : List Event) (t : State), .rst ∉ evs ∧ runSchedule evs s = .next t ∧ Drained t

/-! ### Invariants -/

/-- The invariants of R33 hold at reset. -/
def Obligations.InvariantsHoldAtReset : Prop := Inv State.reset

/-- Every step keeps the invariants of R33, the token ranges of R51 to R53, the channel capacities of R54 and the sign
of the error (R142), from every state that has them, under every event, the reset input among them. -/
def Obligations.EveryStepKeepsTheInvariants : Prop := ∀ s t : State, Inv s → step s = .next t → Inv t

/-- R33 (a), R32, R270: what `XL` and `XR` hold before they are written never shows: two states that differ there only
step to two states that differ there only. -/
def Obligations.UnwrittenSamplesNeverShow : Prop :=
  ∀ s t : State, SameButDead s t →
    ∃ s' t' : State, step s = .next s' ∧ step t = .next t' ∧ SameButDead s' t'

/-- R141: with every sample at most `XMAX(W)` the error stays a fraction: every step keeps it so. -/
def Obligations.SafeSamplesKeepTheErrorAFraction : Prop :=
  ∀ s t : State, NoOverload s → step s = .next t → NoOverload t

/-! ### The values the functions compute -/

/-- R102, R108: the interpolated value is `a + (b - a) * j / F` exactly, phase 0 is the left sample, and every value of a
span lies between its endpoints. -/
def Obligations.InterpolationIsExact : Prop :=
  ∀ (F j : Nat) (a b : Sample), 1 ≤ F → j < F →
    interpValue F a b j = (s16 a : ℚ) + ((s16 b : ℚ) - s16 a) * j / F ∧
    interpValue F a b 0 = s16 a ∧
    min (s16 a : ℚ) (s16 b) ≤ interpValue F a b j ∧ interpValue F a b j ≤ max (s16 a : ℚ) (s16 b)

/-- R101, R103 to R106: `interpolate` has `N * F` values; the value at index `i*F + j` is phase `j` of span `i`, and the last
`F` values are the last sample. -/
def Obligations.InterpolateIsSpansThenTail : Prop :=
  ∀ (F : Nat) (xs : List Sample), 1 ≤ F →
    (interpolate F xs).length = xs.length * F ∧
    (∀ i j a b, j < F → xs[i]? = some a → xs[i + 1]? = some b →
      (interpolate F xs)[i * F + j]? = some (interpValue F a b j)) ∧
    (∀ j a, j < F → xs.getLast? = some a → (interpolate F xs)[(xs.length - 1) * F + j]? = some (s16 a : ℚ))

/-- R136: one code per value, each in `0 .. 2^W - 1`, for every input and every starting error. -/
def Obligations.CodesStayInRange : Prop :=
  ∀ (W : Nat) (e : ℚ) (ss : List ℚ),
    (quantizeFrom W e ss).1.length = ss.length ∧ ∀ q ∈ (quantizeFrom W e ss).1, q ≤ 2 ^ W - 1

/-- R140: one quantizer step on integers over the common denominator gives the code and the error of the step on
rationals; without a wrap the new error is `T mod D`. -/
def Obligations.IntegerStepEqualsRationalStep : Prop :=
  ∀ (F W : Nat) (E U : Int), 1 ≤ F → 1 ≤ W →
    (qstep W ((E : ℚ) / denom F) (scaleValue W ((U : ℚ) / F))).1 = (qstepInt F W E U).1 ∧
    (qstep W ((E : ℚ) / denom F) (scaleValue W ((U : ℚ) / F))).2 = ((qstepInt F W E U).2 : ℚ) / denom F ∧
    (let T := (mask W : Int) * U + E + (half W : Int) * denom F
     0 ≤ T / denom F → T / denom F ≤ mask W → (qstepInt F W E U).2 = T % denom F)

/-- R141: a fractional error and a scaled value in the no-wrap range give no wrap and a fractional error again. -/
def Obligations.NoWrapKeepsTheErrorAFraction : Prop :=
  ∀ (W : Nat) (e s : ℚ), 1 ≤ W → 0 ≤ e → e < 1 → NoWrap W s →
    0 ≤ floored W (s + e) ∧ floored W (s + e) ≤ mask W ∧ ((qstep W e s).1 : Int) = floored W (s + e) ∧
    (qstep W e s).2 = Int.fract (s + e + half W) ∧ 0 ≤ (qstep W e s).2 ∧ (qstep W e s).2 < 1

/-- R142: in general the error is the fraction plus the whole multiple of `2^W` that the wrap removed from the code. -/
def Obligations.OverloadAliasesIntoTheError : Prop :=
  ∀ (W : Nat) (e s : ℚ), 1 ≤ W →
    ((qstep W e s).1 : Int) = floored W (s + e) - 2 ^ W * (floored W (s + e) / 2 ^ W) ∧
    (qstep W e s).2 = Int.fract (s + e + half W) + 2 ^ W * ((floored W (s + e) / 2 ^ W : Int) : ℚ)

/-- R143: the codes depend on the error only modulo `2^W`, over a whole run. -/
def Obligations.CodesDependOnTheErrorModulo : Prop :=
  ∀ (W : Nat) (m : Int) (e : ℚ) (ss : List ℚ), 1 ≤ W →
    (quantizeFrom W (e + 2 ^ W * m) ss).1 = (quantizeFrom W e ss).1 ∧
    (quantizeFrom W (e + 2 ^ W * m) ss).2 = (quantizeFrom W e ss).2 + 2 ^ W * m

/-- R148: the error is what the sum of the scaled values leaves over the sum of the levels; and in closed form each code is
`HALF` plus the number of integers the running sum has passed, modulo `2^W`. -/
def Obligations.RunningSumGivesTheCodes : Prop :=
  ∀ (W : Nat) (ss : List ℚ), 1 ≤ W →
    (∀ e, (quantizeFrom W e ss).2 =
      e + ss.sum - ((quantizeFrom W e ss).1.map fun q => (q : ℚ) - half W).sum) ∧
    (∀ s, quantize W (ss ++ [s]) =
      quantize W ss ++ [(((half W : Int) + ⌊ss.sum + s⌋ - ⌊ss.sum⌋) % 2 ^ W).toNat]) ∧
    (∃ m : Int, (quantizeFrom W 0 ss).2 = Int.fract ss.sum + 2 ^ W * m)

/-- R176: splitting the bytes back gives the codes, followed by the padding where the last group was short. -/
def Obligations.UnpackingGivesTheCodesBack : Prop :=
  ∀ (p : Config.Params) (codes : List Nat), (∀ q ∈ codes, q ≤ mask p.W) →
    ((pack p codes).2 = false → (pack p codes).1.flatMap (unpack p) = codes) ∧
    ((pack p codes).2 = true → (pack p codes).1.flatMap (unpack p) =
      codes ++ List.replicate (codesPerByte p - codes.length % codesPerByte p) 0)

/-- R211: the counts of a run of `N` samples, and those of the default configuration. -/
def Obligations.CountsOfARun : Prop :=
  ∀ (p : Config.Params) (xs : List Sample),
    (interpolate p.F xs).length = xs.length * p.F ∧ (runCodes p xs).length = xs.length * p.F ∧
    (∃ (bs : List Byte) (t : Bool), runOutput p xs = bs.map .dat ++ [.eor t] ∧
      bs.length = (xs.length * p.F + (codesPerByte p - 1)) / codesPerByte p ∧
      (t = true ↔ ¬ codesPerByte p ∣ xs.length * p.F) ∧
      (p.F = 520 → p.W = 4 →
        (runCodes p xs).length = 520 * xs.length ∧ bs.length = 260 * xs.length ∧ t = false))

/-! ### The streaming machine computes the functions -/

/-- R115: the Upsampler's steps on the commands of one run push exactly `interpolate` of its samples, then `end`, and leave
the agent in its reset state. -/
def Obligations.UpsamplerComputesInterpolate : Prop :=
  ∀ (s : State) (xs : List Sample) (rest : List CmdTok),
    s.vl = false → s.act = false → s.ph = 0 → s.cfg.capCU = none → s.ci = xs.map .smp ++ .endRun :: rest →
    runSchedule (upsSchedule s.cfg.F xs.length) s = .next { s with
      sched := []
      ci := rest
      cu := s.cu ++ (interpolate s.cfg.F xs).map .val ++ [.endRun]
      xl := xs.getLast?.getD s.xl
      xr := xs.getLast?.getD s.xr }

/-- R146: the Quantizer's steps on the values of one run push exactly the codes of `quantize` of the scaled values; before
`end` the error is the fold's, from whatever error the run began with; `end` clears it. -/
def Obligations.QuantizerComputesQuantize : Prop :=
  ∀ (s : State) (us : List ℚ) (rest : List ValTok), s.cfg.capCC = none →
    (s.cu = us.map .val ++ rest →
      runSchedule (List.replicate us.length .qntStep) s = .next { s with
        sched := []
        cu := rest
        cc := s.cc ++ (quantizeFrom s.cfg.W s.err (scale s.cfg.W us)).1.map .code
        err := (quantizeFrom s.cfg.W s.err (scale s.cfg.W us)).2 }) ∧
    (s.err = 0 → s.cu = us.map .val ++ .endRun :: rest →
      runSchedule (qntSchedule us.length) s = .next { s with
        sched := []
        cu := rest
        cc := s.cc ++ (quantize s.cfg.W (scale s.cfg.W us)).map .code ++ [.endRun] })

/-- R180: the Packer's steps on the codes of one run push exactly the bytes of `pack`, then the end of the run with its
flag, and leave the agent in its reset state. -/
def Obligations.PackerComputesPack : Prop :=
  ∀ (s : State) (codes : List Nat) (rest : List CodeTok),
    s.acc = 0#8 → s.cnt = 0 → s.trunc = false → s.cfg.capCO = none → (∀ q ∈ codes, q ≤ mask s.cfg.W) →
    s.cc = codes.map .code ++ .endRun :: rest →
    runSchedule (pckSchedule (codesPerByte s.cfg) codes.length) s = .next { s with
      sched := []
      cc := rest
      co := s.co ++ (pack s.cfg codes).1.map .dat ++ [.eor (pack s.cfg codes).2] }

/-- R207: the meaning of a command stream. From a block in its reset state, for every configuration, every sequence of
complete runs and every schedule without a reset that leaves nothing to do, the host has received exactly the outputs of
the runs, one after another, and the block is in its reset state again. -/
def Obligations.CommandStreamGivesTheRunsOutputs : Prop :=
  ∀ (s t : State) (runs : List (List Sample)) (evs : List Event),
    BlockIdle s → s.toSend = runsCommands runs → .rst ∉ evs → runSchedule evs s = .next t → Drained t →
    t.received = s.received ++ runsOutput s.cfg runs ∧ BlockIdle t ∧ t.toSend = []

/-- R208: an incomplete run. With `n` samples after the complete runs and no END, the host has received the bytes that the
first `n - 1` spans complete, whatever samples are still to come; the last sample, the error and the open group are held
back. -/
def Obligations.IncompleteRunHoldsBackItsEnd : Prop :=
  ∀ (s t : State) (runs : List (List Sample)) (xs : List Sample) (x : Sample) (evs : List Event),
    BlockIdle s → s.toSend = runsCommands runs ++ (xs ++ [x]).map (fun y => commandWord (.smp y)) →
    .rst ∉ evs → runSchedule evs s = .next t → Drained t →
    let p := s.cfg
    let k := xs.length * p.F
    let q := quantizeFrom p.W 0 (scale p.W ((interpolate p.F (xs ++ [x])).take k))
    (∀ ys, t.received = s.received ++ runsOutput p runs ++
      (runOutput p (xs ++ [x] ++ ys)).take (k / codesPerByte p)) ∧
    t.vl = true ∧ t.xl = x ∧ t.act = false ∧ t.ph = 0 ∧ t.trunc = false ∧ t.err = q.2 ∧
    t.cnt = k % codesPerByte p ∧
    t.acc.toNat = byteSum p.W (k % codesPerByte p) (q.1.drop (k - k % codesPerByte p)) ∧
    t.toSend = [] ∧ t.ci = [] ∧ t.cu = [] ∧ t.cc = [] ∧ t.co = []
end

