-- ==== Sys2Proof/Laws/State.lean ====
section
/-! SUPPORT. Sys2Proof/Laws/State.lean: for every update of the state that the shared operations make, one lemma per
field, so that no later proof unfolds a record update. -/

namespace Sys2Proof.Machine

/-! `raiseTruncated` writes `TRUNC` and nothing else (R28). -/

@[simp] theorem raiseTruncated_xl (s : State) : (raiseTruncated s).xl = s.xl := rfl
@[simp] theorem raiseTruncated_xr (s : State) : (raiseTruncated s).xr = s.xr := rfl
@[simp] theorem raiseTruncated_vl (s : State) : (raiseTruncated s).vl = s.vl := rfl
@[simp] theorem raiseTruncated_act (s : State) : (raiseTruncated s).act = s.act := rfl
@[simp] theorem raiseTruncated_ph (s : State) : (raiseTruncated s).ph = s.ph := rfl
@[simp] theorem raiseTruncated_err (s : State) : (raiseTruncated s).err = s.err := rfl
@[simp] theorem raiseTruncated_acc (s : State) : (raiseTruncated s).acc = s.acc := rfl
@[simp] theorem raiseTruncated_cnt (s : State) : (raiseTruncated s).cnt = s.cnt := rfl
@[simp] theorem raiseTruncated_trunc (s : State) : (raiseTruncated s).trunc = true := rfl
@[simp] theorem raiseTruncated_ci (s : State) : (raiseTruncated s).ci = s.ci := rfl
@[simp] theorem raiseTruncated_cu (s : State) : (raiseTruncated s).cu = s.cu := rfl
@[simp] theorem raiseTruncated_cc (s : State) : (raiseTruncated s).cc = s.cc := rfl
@[simp] theorem raiseTruncated_co (s : State) : (raiseTruncated s).co = s.co := rfl
@[simp] theorem raiseTruncated_cfg (s : State) : (raiseTruncated s).cfg = s.cfg := rfl
@[simp] theorem raiseTruncated_toSend (s : State) : (raiseTruncated s).toSend = s.toSend := rfl
@[simp] theorem raiseTruncated_received (s : State) : (raiseTruncated s).received = s.received := rfl
@[simp] theorem raiseTruncated_sched (s : State) : (raiseTruncated s).sched = s.sched := rfl
@[simp] theorem raiseTruncated_tick (s : State) : (raiseTruncated s).tick = s.tick := rfl

/-! `clearTruncated` writes `TRUNC` and nothing else (R28). -/

@[simp] theorem clearTruncated_xl (s : State) : (clearTruncated s).xl = s.xl := rfl
@[simp] theorem clearTruncated_xr (s : State) : (clearTruncated s).xr = s.xr := rfl
@[simp] theorem clearTruncated_vl (s : State) : (clearTruncated s).vl = s.vl := rfl
@[simp] theorem clearTruncated_act (s : State) : (clearTruncated s).act = s.act := rfl
@[simp] theorem clearTruncated_ph (s : State) : (clearTruncated s).ph = s.ph := rfl
@[simp] theorem clearTruncated_err (s : State) : (clearTruncated s).err = s.err := rfl
@[simp] theorem clearTruncated_acc (s : State) : (clearTruncated s).acc = s.acc := rfl
@[simp] theorem clearTruncated_cnt (s : State) : (clearTruncated s).cnt = s.cnt := rfl
@[simp] theorem clearTruncated_trunc (s : State) : (clearTruncated s).trunc = false := rfl
@[simp] theorem clearTruncated_ci (s : State) : (clearTruncated s).ci = s.ci := rfl
@[simp] theorem clearTruncated_cu (s : State) : (clearTruncated s).cu = s.cu := rfl
@[simp] theorem clearTruncated_cc (s : State) : (clearTruncated s).cc = s.cc := rfl
@[simp] theorem clearTruncated_co (s : State) : (clearTruncated s).co = s.co := rfl
@[simp] theorem clearTruncated_cfg (s : State) : (clearTruncated s).cfg = s.cfg := rfl
@[simp] theorem clearTruncated_toSend (s : State) : (clearTruncated s).toSend = s.toSend := rfl
@[simp] theorem clearTruncated_received (s : State) : (clearTruncated s).received = s.received := rfl
@[simp] theorem clearTruncated_sched (s : State) : (clearTruncated s).sched = s.sched := rfl
@[simp] theorem clearTruncated_tick (s : State) : (clearTruncated s).tick = s.tick := rfl

/-! `applyReset` gives `S0` and leaves the configuration and the host's records (R260). -/

@[simp] theorem applyReset_xl (s : State) : (applyReset s).xl = Config.freeXL s.tick := rfl
@[simp] theorem applyReset_xr (s : State) : (applyReset s).xr = Config.freeXR s.tick := rfl
@[simp] theorem applyReset_vl (s : State) : (applyReset s).vl = false := rfl
@[simp] theorem applyReset_act (s : State) : (applyReset s).act = false := rfl
@[simp] theorem applyReset_ph (s : State) : (applyReset s).ph = 0 := rfl
@[simp] theorem applyReset_err (s : State) : (applyReset s).err = 0 := rfl
@[simp] theorem applyReset_acc (s : State) : (applyReset s).acc = 0#8 := rfl
@[simp] theorem applyReset_cnt (s : State) : (applyReset s).cnt = 0 := rfl
@[simp] theorem applyReset_trunc (s : State) : (applyReset s).trunc = false := rfl
@[simp] theorem applyReset_ci (s : State) : (applyReset s).ci = [] := rfl
@[simp] theorem applyReset_cu (s : State) : (applyReset s).cu = [] := rfl
@[simp] theorem applyReset_cc (s : State) : (applyReset s).cc = [] := rfl
@[simp] theorem applyReset_co (s : State) : (applyReset s).co = [] := rfl
@[simp] theorem applyReset_cfg (s : State) : (applyReset s).cfg = s.cfg := rfl
@[simp] theorem applyReset_toSend (s : State) : (applyReset s).toSend = s.toSend := rfl
@[simp] theorem applyReset_received (s : State) : (applyReset s).received = s.received := rfl
@[simp] theorem applyReset_sched (s : State) : (applyReset s).sched = s.sched := rfl
@[simp] theorem applyReset_tick (s : State) : (applyReset s).tick = s.tick + 1 := rfl

/-! `advance` uses up the schedule's head, or draws a free choice, and changes nothing else. -/

@[simp] theorem advance_xl (s : State) : (advance s).xl = s.xl := by unfold advance; split <;> rfl
@[simp] theorem advance_xr (s : State) : (advance s).xr = s.xr := by unfold advance; split <;> rfl
@[simp] theorem advance_vl (s : State) : (advance s).vl = s.vl := by unfold advance; split <;> rfl
@[simp] theorem advance_act (s : State) : (advance s).act = s.act := by unfold advance; split <;> rfl
@[simp] theorem advance_ph (s : State) : (advance s).ph = s.ph := by unfold advance; split <;> rfl
@[simp] theorem advance_err (s : State) : (advance s).err = s.err := by unfold advance; split <;> rfl
@[simp] theorem advance_acc (s : State) : (advance s).acc = s.acc := by unfold advance; split <;> rfl
@[simp] theorem advance_cnt (s : State) : (advance s).cnt = s.cnt := by unfold advance; split <;> rfl
@[simp] theorem advance_trunc (s : State) : (advance s).trunc = s.trunc := by unfold advance; split <;> rfl
@[simp] theorem advance_ci (s : State) : (advance s).ci = s.ci := by unfold advance; split <;> rfl
@[simp] theorem advance_cu (s : State) : (advance s).cu = s.cu := by unfold advance; split <;> rfl
@[simp] theorem advance_cc (s : State) : (advance s).cc = s.cc := by unfold advance; split <;> rfl
@[simp] theorem advance_co (s : State) : (advance s).co = s.co := by unfold advance; split <;> rfl
@[simp] theorem advance_cfg (s : State) : (advance s).cfg = s.cfg := by unfold advance; split <;> rfl
@[simp] theorem advance_toSend (s : State) : (advance s).toSend = s.toSend := by unfold advance; split <;> rfl
@[simp] theorem advance_received (s : State) : (advance s).received = s.received := by unfold advance; split <;> rfl
@[simp] theorem advance_sched (s : State) : (advance s).sched = s.sched.tail := by
  unfold advance; split <;> simp_all
@[simp] theorem advance_tick (s : State) :
    (advance s).tick = if s.sched = [] then s.tick + 1 else s.tick := by
  unfold advance; split <;> simp_all

/-! `nextPhase` writes `PH` and, at the end of a span, `ACT` and `XL` (R112). -/

@[simp] theorem nextPhase_xr (s : State) : (nextPhase s).xr = s.xr := by unfold nextPhase; split <;> rfl
@[simp] theorem nextPhase_vl (s : State) : (nextPhase s).vl = s.vl := by unfold nextPhase; split <;> rfl
@[simp] theorem nextPhase_err (s : State) : (nextPhase s).err = s.err := by unfold nextPhase; split <;> rfl
@[simp] theorem nextPhase_acc (s : State) : (nextPhase s).acc = s.acc := by unfold nextPhase; split <;> rfl
@[simp] theorem nextPhase_cnt (s : State) : (nextPhase s).cnt = s.cnt := by unfold nextPhase; split <;> rfl
@[simp] theorem nextPhase_trunc (s : State) : (nextPhase s).trunc = s.trunc := by unfold nextPhase; split <;> rfl
@[simp] theorem nextPhase_ci (s : State) : (nextPhase s).ci = s.ci := by unfold nextPhase; split <;> rfl
@[simp] theorem nextPhase_cu (s : State) : (nextPhase s).cu = s.cu := by unfold nextPhase; split <;> rfl
@[simp] theorem nextPhase_cc (s : State) : (nextPhase s).cc = s.cc := by unfold nextPhase; split <;> rfl
@[simp] theorem nextPhase_co (s : State) : (nextPhase s).co = s.co := by unfold nextPhase; split <;> rfl
@[simp] theorem nextPhase_cfg (s : State) : (nextPhase s).cfg = s.cfg := by unfold nextPhase; split <;> rfl
@[simp] theorem nextPhase_toSend (s : State) : (nextPhase s).toSend = s.toSend := by unfold nextPhase; split <;> rfl
@[simp] theorem nextPhase_received (s : State) : (nextPhase s).received = s.received := by unfold nextPhase; split <;> rfl
@[simp] theorem nextPhase_sched (s : State) : (nextPhase s).sched = s.sched := by unfold nextPhase; split <;> rfl
@[simp] theorem nextPhase_tick (s : State) : (nextPhase s).tick = s.tick := by unfold nextPhase; split <;> rfl
@[simp] theorem nextPhase_ph (s : State) :
    (nextPhase s).ph = if s.ph + 1 < s.cfg.F then s.ph + 1 else 0 := by unfold nextPhase; split <;> rfl
@[simp] theorem nextPhase_act (s : State) :
    (nextPhase s).act = if s.ph + 1 < s.cfg.F then s.act else false := by unfold nextPhase; split <;> rfl
@[simp] theorem nextPhase_xl (s : State) :
    (nextPhase s).xl = if s.ph + 1 < s.cfg.F then s.xl else s.xr := by unfold nextPhase; split <;> rfl

/-! `putCommand` writes `CI` and nothing else (R204). -/

@[simp] theorem putCommand_xl (t : CmdTok) (s : State) : (putCommand t s).xl = s.xl := by unfold putCommand; split <;> rfl
@[simp] theorem putCommand_xr (t : CmdTok) (s : State) : (putCommand t s).xr = s.xr := by unfold putCommand; split <;> rfl
@[simp] theorem putCommand_vl (t : CmdTok) (s : State) : (putCommand t s).vl = s.vl := by unfold putCommand; split <;> rfl
@[simp] theorem putCommand_act (t : CmdTok) (s : State) : (putCommand t s).act = s.act := by unfold putCommand; split <;> rfl
@[simp] theorem putCommand_ph (t : CmdTok) (s : State) : (putCommand t s).ph = s.ph := by unfold putCommand; split <;> rfl
@[simp] theorem putCommand_err (t : CmdTok) (s : State) : (putCommand t s).err = s.err := by unfold putCommand; split <;> rfl
@[simp] theorem putCommand_acc (t : CmdTok) (s : State) : (putCommand t s).acc = s.acc := by unfold putCommand; split <;> rfl
@[simp] theorem putCommand_cnt (t : CmdTok) (s : State) : (putCommand t s).cnt = s.cnt := by unfold putCommand; split <;> rfl
@[simp] theorem putCommand_trunc (t : CmdTok) (s : State) : (putCommand t s).trunc = s.trunc := by unfold putCommand; split <;> rfl
@[simp] theorem putCommand_cu (t : CmdTok) (s : State) : (putCommand t s).cu = s.cu := by unfold putCommand; split <;> rfl
@[simp] theorem putCommand_cc (t : CmdTok) (s : State) : (putCommand t s).cc = s.cc := by unfold putCommand; split <;> rfl
@[simp] theorem putCommand_co (t : CmdTok) (s : State) : (putCommand t s).co = s.co := by unfold putCommand; split <;> rfl
@[simp] theorem putCommand_cfg (t : CmdTok) (s : State) : (putCommand t s).cfg = s.cfg := by unfold putCommand; split <;> rfl
@[simp] theorem putCommand_toSend (t : CmdTok) (s : State) : (putCommand t s).toSend = s.toSend := by unfold putCommand; split <;> rfl
@[simp] theorem putCommand_received (t : CmdTok) (s : State) : (putCommand t s).received = s.received := by unfold putCommand; split <;> rfl
@[simp] theorem putCommand_sched (t : CmdTok) (s : State) : (putCommand t s).sched = s.sched := by unfold putCommand; split <;> rfl
@[simp] theorem putCommand_tick (t : CmdTok) (s : State) : (putCommand t s).tick = s.tick := by unfold putCommand; split <;> rfl
@[simp] theorem putCommand_ci (t : CmdTok) (s : State) :
    (putCommand t s).ci = if s.ciReady then s.ci ++ [t] else s.ci := by unfold putCommand push; split <;> rfl

/-! `takeOutput` writes `CO` and the host's record and nothing else (R205). -/

@[simp] theorem takeOutput_xl (t : OutTok) (s : State) : (takeOutput t s).xl = s.xl := by
  unfold takeOutput; split <;> (try split) <;> rfl
@[simp] theorem takeOutput_xr (t : OutTok) (s : State) : (takeOutput t s).xr = s.xr := by
  unfold takeOutput; split <;> (try split) <;> rfl
@[simp] theorem takeOutput_vl (t : OutTok) (s : State) : (takeOutput t s).vl = s.vl := by
  unfold takeOutput; split <;> (try split) <;> rfl
@[simp] theorem takeOutput_act (t : OutTok) (s : State) : (takeOutput t s).act = s.act := by
  unfold takeOutput; split <;> (try split) <;> rfl
@[simp] theorem takeOutput_ph (t : OutTok) (s : State) : (takeOutput t s).ph = s.ph := by
  unfold takeOutput; split <;> (try split) <;> rfl
@[simp] theorem takeOutput_err (t : OutTok) (s : State) : (takeOutput t s).err = s.err := by
  unfold takeOutput; split <;> (try split) <;> rfl
@[simp] theorem takeOutput_acc (t : OutTok) (s : State) : (takeOutput t s).acc = s.acc := by
  unfold takeOutput; split <;> (try split) <;> rfl
@[simp] theorem takeOutput_cnt (t : OutTok) (s : State) : (takeOutput t s).cnt = s.cnt := by
  unfold takeOutput; split <;> (try split) <;> rfl
@[simp] theorem takeOutput_trunc (t : OutTok) (s : State) : (takeOutput t s).trunc = s.trunc := by
  unfold takeOutput; split <;> (try split) <;> rfl
@[simp] theorem takeOutput_ci (t : OutTok) (s : State) : (takeOutput t s).ci = s.ci := by
  unfold takeOutput; split <;> (try split) <;> rfl
@[simp] theorem takeOutput_cu (t : OutTok) (s : State) : (takeOutput t s).cu = s.cu := by
  unfold takeOutput; split <;> (try split) <;> rfl
@[simp] theorem takeOutput_cc (t : OutTok) (s : State) : (takeOutput t s).cc = s.cc := by
  unfold takeOutput; split <;> (try split) <;> rfl
@[simp] theorem takeOutput_cfg (t : OutTok) (s : State) : (takeOutput t s).cfg = s.cfg := by
  unfold takeOutput; split <;> (try split) <;> rfl
@[simp] theorem takeOutput_toSend (t : OutTok) (s : State) : (takeOutput t s).toSend = s.toSend := by
  unfold takeOutput; split <;> (try split) <;> rfl
@[simp] theorem takeOutput_sched (t : OutTok) (s : State) : (takeOutput t s).sched = s.sched := by
  unfold takeOutput; split <;> (try split) <;> rfl
@[simp] theorem takeOutput_tick (t : OutTok) (s : State) : (takeOutput t s).tick = s.tick := by
  unfold takeOutput; split <;> (try split) <;> rfl

end Sys2Proof.Machine
end

