-- ==== Sys2Proof/Laws/Ops.lean ====
section
/-! SUPPORT. Sys2Proof/Laws/Ops.lean: for each shared operation, once, everything it can do. -/

namespace Sys2Proof.Machine

theorem push_eq {α : Type} (c : List α) (t : α) : push c t = c ++ [t] := rfl

@[simp] theorem push_length {α : Type} (c : List α) (t : α) : (push c t).length = c.length + 1 := by simp [push]

@[simp] theorem push_ne_nil {α : Type} (c : List α) (t : α) : push c t ≠ [] := by simp [push]

@[simp] theorem room_unbounded {α : Type} (c : List α) : room none c = true := rfl

/-- `room` holds exactly while the channel is below its capacity. -/
theorem room_iff {α : Type} (cap : Option Nat) (c : List α) :
    room cap c = true ↔ ∀ n, cap = some n → c.length < n := by
  cases cap <;> simp [room]

/-- Every legal capacity has room in an empty channel (R9, R54). -/
theorem room_nil {α : Type} {cap : Option Nat} (h : Config.CapOk cap) : room cap ([] : List α) = true := by
  cases cap with
  | none => rfl
  | some n => cases n with
    | zero => exact absurd rfl h
    | succ n => simp [room]

/-- What crosses port `CI`: the host's next word, when it has one and `ci_ready` is asserted. -/
theorem fetchCommand_some {s s' : State} {p : PortWord} :
    fetchCommand s = some (p, s') ↔
      ∃ w ws, s.toSend = w :: ws ∧ s.ciReady = true ∧ p = .cw w ∧ s' = { s with toSend := ws } := by
  unfold fetchCommand
  constructor
  · split
    · simp
    · split
      · rename_i w ws h hr
        rintro h'
        cases h'
        exact ⟨w, ws, h, hr, rfl, rfl⟩
      · simp
  · rintro ⟨w, ws, h, hr, rfl, rfl⟩
    simp [h, hr]

/-- What crosses port `CO`: the word of the token at the head of the channel. -/
theorem fetchOutput_some {s s' : State} {p : PortWord} :
    fetchOutput s = some (p, s') ↔ ∃ t rest, s.co = t :: rest ∧ p = .ow (outputWord t) ∧ s' = s := by
  unfold fetchOutput State.coData
  cases h : s.co with
  | nil => simp
  | cons t rest => simp [eq_comm]

/-- The effect of a command's transfer where the port accepts it (R204). -/
theorem putCommand_ready {t : CmdTok} {s : State} (h : s.ciReady = true) :
    putCommand t s = { s with ci := s.ci ++ [t] } := by simp [putCommand, push, h]

/-- Without room the port does not accept the command. -/
theorem putCommand_full {t : CmdTok} {s : State} (h : s.ciReady = false) : putCommand t s = s := by
  simp [putCommand, h]

/-- The effect of an output word's transfer (R205). -/
theorem takeOutput_head {t : OutTok} {rest : List OutTok} {s : State} (h : s.co = t :: rest) :
    takeOutput t s = { s with co := rest, received := s.received ++ [t] } := by simp [takeOutput, push, h]

/-- A word that is not the one shown is not transferred. -/
theorem takeOutput_other {t : OutTok} {s : State} (h : s.co.head? ≠ some t) : takeOutput t s = s := by
  unfold takeOutput
  cases hc : s.co with
  | nil => rfl
  | cons a rest =>
    have : a ≠ t := by rintro rfl; simp [hc] at h
    simp [this]

end Sys2Proof.Machine
end

