-- ==== Sys2Proof/Laws/Steps.lean ====
section
/-! SUPPORT. Sys2Proof/Laws/Steps.lean: each internal step inverted once: exactly when it is taken and exactly what it
then gives. Later proofs cite these and do not unfold the steps. -/

namespace Sys2Proof.Machine

variable {s t : State}

theorem upsFirst_some : upsFirst s = some t ↔ ∃ x rest, s.act = false ∧ s.vl = false ∧ s.ci = .smp x :: rest ∧
    t = { s with ci := rest, xl := x, vl := true } := by
  unfold upsFirst
  constructor
  · split
    · rintro h; cases h; exact ⟨_, _, ‹_›, ‹_›, ‹_›, rfl⟩
    · simp
  · rintro ⟨x, rest, ha, hv, hc, rfl⟩; simp [ha, hv, hc]

theorem upsNext_some : upsNext s = some t ↔ ∃ x rest, s.act = false ∧ s.vl = true ∧ s.ci = .smp x :: rest ∧
    t = { s with ci := rest, xr := x, act := true, ph := 0 } := by
  unfold upsNext
  constructor
  · split
    · rintro h; cases h; exact ⟨_, _, ‹_›, ‹_›, ‹_›, rfl⟩
    · simp
  · rintro ⟨x, rest, ha, hv, hc, rfl⟩; simp [ha, hv, hc]

theorem upsEmit_some : upsEmit s = some t ↔ s.act = true ∧ room s.cfg.capCU s.cu = true ∧
    t = { nextPhase s with cu := s.cu ++ [.val (interpValue s.cfg.F s.xl s.xr s.ph)] } := by
  unfold upsEmit push
  constructor
  · split
    · rintro h; cases h; simp_all
    · simp
  · rintro ⟨ha, hr, rfl⟩; simp [ha, hr]

theorem upsTail_some : upsTail s = some t ↔ ∃ rest, s.act = false ∧ s.vl = true ∧ s.ci = .endRun :: rest ∧
    t = { s with xr := s.xl, act := true, ph := 0, vl := false } := by
  unfold upsTail
  constructor
  · split
    · rintro h; cases h; exact ⟨_, ‹_›, ‹_›, ‹_›, rfl⟩
    · simp
  · rintro ⟨rest, ha, hv, hc, rfl⟩; simp [ha, hv, hc]

theorem upsFwd_some : upsFwd s = some t ↔ ∃ rest, s.act = false ∧ s.vl = false ∧ s.ci = .endRun :: rest ∧
    room s.cfg.capCU s.cu = true ∧ t = { s with ci := rest, cu := s.cu ++ [.endRun] } := by
  unfold upsFwd push
  constructor
  · split
    · split
      · rintro h; cases h; exact ⟨_, ‹_›, ‹_›, ‹_›, ‹_›, rfl⟩
      · simp
    · simp
  · rintro ⟨rest, ha, hv, hc, hr, rfl⟩; simp [ha, hv, hc, hr]

theorem qntStep_some : qntStep s = some t ↔ ∃ u rest, s.cu = .val u :: rest ∧ room s.cfg.capCC s.cc = true ∧
    t = { s with
      cu := rest
      err := (qstep s.cfg.W s.err (scaleValue s.cfg.W u)).2
      cc := s.cc ++ [.code (qstep s.cfg.W s.err (scaleValue s.cfg.W u)).1] } := by
  unfold qntStep push
  constructor
  · split
    · split
      · rintro h; cases h; exact ⟨_, _, ‹_›, ‹_›, rfl⟩
      · simp
    · simp
  · rintro ⟨u, rest, hc, hr, rfl⟩; simp [hc, hr]

theorem qntEnd_some : qntEnd s = some t ↔ ∃ rest, s.cu = .endRun :: rest ∧ room s.cfg.capCC s.cc = true ∧
    t = { s with cu := rest, err := 0, cc := s.cc ++ [.endRun] } := by
  unfold qntEnd push
  constructor
  · split
    · split
      · rintro h; cases h; exact ⟨_, ‹_›, ‹_›, rfl⟩
      · simp
    · simp
  · rintro ⟨rest, hc, hr, rfl⟩; simp [hc, hr]

/-- PCK.SHIFT takes a code either into the byte under assembly or out with the full byte. -/
theorem pckShift_some : pckShift s = some t ↔ ∃ q rest, s.cc = .code q :: rest ∧
    ((s.cnt + 1 < codesPerByte s.cfg ∧
        t = { s with cc := rest, acc := shiftIn s.cfg.W s.acc q, cnt := s.cnt + 1 }) ∨
      (¬ s.cnt + 1 < codesPerByte s.cfg ∧ room s.cfg.capCO s.co = true ∧
        t = { s with cc := rest, co := s.co ++ [.dat (shiftIn s.cfg.W s.acc q)], acc := 0#8, cnt := 0 })) := by
  unfold pckShift push
  constructor
  · split
    · rename_i q rest hc
      intro h
      refine ⟨q, rest, hc, ?_⟩
      by_cases hk : s.cnt + 1 < codesPerByte s.cfg
      · simp only [hk, if_true] at h; cases h; exact .inl ⟨hk, rfl⟩
      · simp only [hk, if_false] at h
        split at h
        · cases h; exact .inr ⟨hk, ‹_›, rfl⟩
        · cases h
    · simp
  · rintro ⟨q, rest, hc, ⟨hk, rfl⟩ | ⟨hk, hr, rfl⟩⟩
    · simp [hc, hk]
    · simp [hc, hk, hr]

theorem pckPad_some : pckPad s = some t ↔ ∃ rest, s.cc = .endRun :: rest ∧ s.cnt ≠ 0 ∧
    room s.cfg.capCO s.co = true ∧
    t = { s with co := s.co ++ [.dat (padOut s.cfg s.acc s.cnt)], acc := 0#8, cnt := 0, trunc := true } := by
  unfold pckPad push
  constructor
  · split
    · split
      · rename_i h; rintro h'; cases h'; exact ⟨_, ‹_›, h.1, h.2, rfl⟩
      · simp
    · simp
  · rintro ⟨rest, hc, hn, hr, rfl⟩; simp [hc, hn, hr, raiseTruncated]

theorem pckEor_some : pckEor s = some t ↔ ∃ rest, s.cc = .endRun :: rest ∧ s.cnt = 0 ∧
    room s.cfg.capCO s.co = true ∧
    t = { s with cc := rest, co := s.co ++ [.eor s.trunc], trunc := false } := by
  unfold pckEor push
  constructor
  · split
    · split
      · rename_i h; rintro h'; cases h'; exact ⟨_, ‹_›, h.1, h.2, rfl⟩
      · simp
    · simp
  · rintro ⟨rest, hc, hn, hr, rfl⟩; simp [hc, hn, hr, clearTruncated]

/-- A step whose guard fails leaves the state as it is; one that is taken gives its effect (R209). -/
theorem orWait_next (o : Option State) (s : State) : orWait o s = .next (o.getD s) := by cases o <;> rfl

end Sys2Proof.Machine
end

