-- ==== Sys2Proof/Laws/Events.lean ====
section
/-! SUPPORT. Sys2Proof/Laws/Events.lean: what one event can do, said once: the effect of each internal step as a case of
one relation, and the two host events in terms of the row that crosses the port. Later proofs take these cases and do
not unfold `perform`. -/

namespace Sys2Proof.Machine

/-- The whole effect of an internal step of the block, one case per step (two for PCK.SHIFT). -/
inductive Effect : Event → State → State → Prop
  | upsFirst {s : State} {x rest} : s.act = false → s.vl = false → s.ci = .smp x :: rest →
      Effect .upsFirst s { s with ci := rest, xl := x, vl := true }
  | upsNext {s : State} {x rest} : s.act = false → s.vl = true → s.ci = .smp x :: rest →
      Effect .upsNext s { s with ci := rest, xr := x, act := true, ph := 0 }
  | upsEmit {s : State} : s.act = true → room s.cfg.capCU s.cu = true →
      Effect .upsEmit s { nextPhase s with cu := s.cu ++ [.val (interpValue s.cfg.F s.xl s.xr s.ph)] }
  | upsTail {s : State} {rest} : s.act = false → s.vl = true → s.ci = .endRun :: rest →
      Effect .upsTail s { s with xr := s.xl, act := true, ph := 0, vl := false }
  | upsFwd {s : State} {rest} : s.act = false → s.vl = false → s.ci = .endRun :: rest →
      room s.cfg.capCU s.cu = true → Effect .upsFwd s { s with ci := rest, cu := s.cu ++ [.endRun] }
  | qntStep {s : State} {u rest} : s.cu = .val u :: rest → room s.cfg.capCC s.cc = true →
      Effect .qntStep s { s with
        cu := rest
        err := (qstep s.cfg.W s.err (scaleValue s.cfg.W u)).2
        cc := s.cc ++ [.code (qstep s.cfg.W s.err (scaleValue s.cfg.W u)).1] }
  | qntEnd {s : State} {rest} : s.cu = .endRun :: rest → room s.cfg.capCC s.cc = true →
      Effect .qntEnd s { s with cu := rest, err := 0, cc := s.cc ++ [.endRun] }
  | pckShift {s : State} {q rest} : s.cc = .code q :: rest → s.cnt + 1 < codesPerByte s.cfg →
      Effect .pckShift s { s with cc := rest, acc := shiftIn s.cfg.W s.acc q, cnt := s.cnt + 1 }
  | pckSend {s : State} {q rest} : s.cc = .code q :: rest → ¬ s.cnt + 1 < codesPerByte s.cfg →
      room s.cfg.capCO s.co = true → Effect .pckShift s { s with
        cc := rest, co := s.co ++ [.dat (shiftIn s.cfg.W s.acc q)], acc := 0#8, cnt := 0 }
  | pckPad {s : State} {rest} : s.cc = .endRun :: rest → s.cnt ≠ 0 → room s.cfg.capCO s.co = true →
      Effect .pckPad s { s with
        co := s.co ++ [.dat (padOut s.cfg s.acc s.cnt)], acc := 0#8, cnt := 0, trunc := true }
  | pckEor {s : State} {rest} : s.cc = .endRun :: rest → s.cnt = 0 → room s.cfg.capCO s.co = true →
      Effect .pckEor s { s with cc := rest, co := s.co ++ [.eor s.trunc], trunc := false }

variable {e : Event} {s t : State}

/-- An effect is performed by its event. -/
theorem Effect.perform_eq (h : Effect e s t) : perform e s = .next t := by
  cases h with
  | upsFirst a b c => simp [perform, orWait_next, upsFirst_some.2 ⟨_, _, a, b, c, rfl⟩]
  | upsNext a b c => simp [perform, orWait_next, upsNext_some.2 ⟨_, _, a, b, c, rfl⟩]
  | upsEmit a b => simp [perform, orWait_next, upsEmit_some.2 ⟨a, b, rfl⟩]
  | upsTail a b c => simp [perform, orWait_next, upsTail_some.2 ⟨_, a, b, c, rfl⟩]
  | upsFwd a b c d => simp [perform, orWait_next, upsFwd_some.2 ⟨_, a, b, c, d, rfl⟩]
  | qntStep a b => simp [perform, orWait_next, qntStep_some.2 ⟨_, _, a, b, rfl⟩]
  | qntEnd a b => simp [perform, orWait_next, qntEnd_some.2 ⟨_, a, b, rfl⟩]
  | pckShift a b => simp [perform, orWait_next, pckShift_some.2 ⟨_, _, a, .inl ⟨b, rfl⟩⟩]
  | pckSend a b c => simp [perform, orWait_next, pckShift_some.2 ⟨_, _, a, .inr ⟨b, c, rfl⟩⟩]
  | pckPad a b c => simp [perform, orWait_next, pckPad_some.2 ⟨_, a, b, c, rfl⟩]
  | pckEor a b c => simp [perform, orWait_next, pckEor_some.2 ⟨_, a, b, c, rfl⟩]

/-- A step that is taken has an effect. -/
theorem effect_of_taken :
    (upsFirst s = some t → Effect .upsFirst s t) ∧ (upsNext s = some t → Effect .upsNext s t) ∧
    (upsEmit s = some t → Effect .upsEmit s t) ∧ (upsTail s = some t → Effect .upsTail s t) ∧
    (upsFwd s = some t → Effect .upsFwd s t) ∧ (qntStep s = some t → Effect .qntStep s t) ∧
    (qntEnd s = some t → Effect .qntEnd s t) ∧ (pckShift s = some t → Effect .pckShift s t) ∧
    (pckPad s = some t → Effect .pckPad s t) ∧ (pckEor s = some t → Effect .pckEor s t) := by
  refine ⟨fun h => ?_, fun h => ?_, fun h => ?_, fun h => ?_, fun h => ?_, fun h => ?_, fun h => ?_, fun h => ?_,
    fun h => ?_, fun h => ?_⟩
  · obtain ⟨x, r, a, b, c, rfl⟩ := upsFirst_some.1 h; exact .upsFirst a b c
  · obtain ⟨x, r, a, b, c, rfl⟩ := upsNext_some.1 h; exact .upsNext a b c
  · obtain ⟨a, b, rfl⟩ := upsEmit_some.1 h; exact .upsEmit a b
  · obtain ⟨r, a, b, c, rfl⟩ := upsTail_some.1 h; exact .upsTail a b c
  · obtain ⟨r, a, b, c, d, rfl⟩ := upsFwd_some.1 h; exact .upsFwd a b c d
  · obtain ⟨u, r, a, b, rfl⟩ := qntStep_some.1 h; exact .qntStep a b
  · obtain ⟨r, a, b, rfl⟩ := qntEnd_some.1 h; exact .qntEnd a b
  · obtain ⟨q, r, a, ⟨b, rfl⟩ | ⟨b, c, rfl⟩⟩ := pckShift_some.1 h
    · exact .pckShift a b
    · exact .pckSend a b c
  · obtain ⟨r, a, b, c, rfl⟩ := pckPad_some.1 h; exact .pckPad a b c
  · obtain ⟨r, a, b, c, rfl⟩ := pckEor_some.1 h; exact .pckEor a b c

/-- Everything an event other than the host's and the reset can do: it changes nothing, or it has its effect. -/
theorem perform_internal (h₁ : e ≠ .hostPut) (h₂ : e ≠ .hostTake) (h₃ : e ≠ .rst) (h : perform e s = .next t) :
    t = s ∨ Effect e s t := by
  have waitOr : ∀ {o : Option State}, (∀ u, o = some u → Effect e s u) → orWait o s = .next t → t = s ∨ Effect e s t := by
    intro o ho hw
    cases o with
    | none => cases hw; exact .inl rfl
    | some u => cases hw; exact .inr (ho _ rfl)
  cases e with
  | hostPut => exact absurd rfl h₁
  | hostTake => exact absurd rfl h₂
  | rst => exact absurd rfl h₃
  | upsFirst => exact waitOr (fun u => (effect_of_taken (t := u)).1) h
  | upsNext => exact waitOr (fun u => (effect_of_taken (t := u)).2.1) h
  | upsEmit => exact waitOr (fun u => (effect_of_taken (t := u)).2.2.1) h
  | upsTail => exact waitOr (fun u => (effect_of_taken (t := u)).2.2.2.1) h
  | upsFwd => exact waitOr (fun u => (effect_of_taken (t := u)).2.2.2.2.1) h
  | qntStep => exact waitOr (fun u => (effect_of_taken (t := u)).2.2.2.2.2.1) h
  | qntEnd => exact waitOr (fun u => (effect_of_taken (t := u)).2.2.2.2.2.2.1) h
  | pckShift => exact waitOr (fun u => (effect_of_taken (t := u)).2.2.2.2.2.2.2.1) h
  | pckPad => exact waitOr (fun u => (effect_of_taken (t := u)).2.2.2.2.2.2.2.2.1) h
  | pckEor => exact waitOr (fun u => (effect_of_taken (t := u)).2.2.2.2.2.2.2.2.2) h

/-- HOST.PUT with a word and room runs the row that the word decodes to. -/
theorem perform_hostPut {w : CommandWord} {ws : List CommandWord} (h : s.toSend = w :: ws) (hr : s.ciReady = true) :
    perform .hostPut s = exec (decodeCommand w) { s with toSend := ws } := by
  simp [perform, fetchCommand, h, hr, onPort, decode]

/-- HOST.PUT without a word or without room changes nothing. -/
theorem perform_hostPut_wait (h : s.toSend = [] ∨ s.ciReady = false) : perform .hostPut s = .next s := by
  rcases h with h | h
  · simp [perform, fetchCommand, h, onPort]
  · cases hs : s.toSend with
    | nil => simp [perform, fetchCommand, hs, onPort]
    | cons w ws => simp [perform, fetchCommand, hs, h, onPort]

/-- HOST.TAKE runs the row that the word shown decodes to. -/
theorem perform_hostTake {u : OutTok} {rest : List OutTok} {i : Instr} (h : s.co = u :: rest)
    (hd : decodeOutput (outputWord u) = .ok i) : perform .hostTake s = exec i s := by
  simp [perform, fetchOutput, State.coData, h, onPort, decode, hd]

/-- HOST.TAKE of an empty `CO` changes nothing. -/
theorem perform_hostTake_wait (h : s.co = []) : perform .hostTake s = .next s := by
  simp [perform, fetchOutput, State.coData, h, onPort]

/-- The reset input gives the reset state. -/
theorem perform_rst : perform .rst s = .next (applyReset s) := rfl

/-- One step performs the next event on the state in which it has been chosen. -/
theorem step_eq : step s = perform (nextEvent s) (advance s) := rfl

end Sys2Proof.Machine
end

