-- ==== Sys2Proof/Laws/PerInstr.lean ====
section
/-! SUPPORT. Sys2Proof/Laws/PerInstr.lean: statements made of every row of the opcode table, one lemma per constructor. -/

namespace Sys2Proof.Laws

/-- The canonical word of a row has its row's match under its row's mask (spec/opcode_table.json; 30_encoding.md R75,
R76, R78, R79), on the port of the row. -/
def OpcodeRow.Statement (i : Instr) : Prop :=
  match i with
  | .smp _ => ∃ w, encode i = .cw w ∧ w &&& 0x10000#17 = 0x00000#17
  | .endRun => ∃ w, encode i = .cw w ∧ w &&& 0x10000#17 = 0x10000#17
  | .dat _ => ∃ w, encode i = .ow w ∧ w &&& 0x100#9 = 0x000#9
  | .eor _ => ∃ w, encode i = .ow w ∧ w &&& 0x1FE#9 = 0x100#9

theorem OpcodeRow.smp (x : Sample) : OpcodeRow.Statement (.smp x) := by
  refine ⟨x.setWidth 17, rfl, ?_⟩
  apply BitVec.eq_of_toNat_eq
  rw [BitVec.toNat_and, BitVec.toNat_setWidth_of_le (by decide)]
  have h : x.toNat &&& 2 ^ 16 = 0 := by
    rw [Nat.and_two_pow, Nat.testBit_lt_two_pow x.isLt]; rfl
  simpa using h

theorem OpcodeRow.endRun : OpcodeRow.Statement .endRun := ⟨_, rfl, by decide⟩

theorem OpcodeRow.dat (b : Byte) : OpcodeRow.Statement (.dat b) := by
  refine ⟨b.setWidth 9, rfl, ?_⟩
  apply BitVec.eq_of_toNat_eq
  rw [BitVec.toNat_and, BitVec.toNat_setWidth_of_le (by decide)]
  have h : b.toNat &&& 2 ^ 8 = 0 := by
    rw [Nat.and_two_pow, Nat.testBit_lt_two_pow b.isLt]; rfl
  simpa using h

theorem OpcodeRow.eor (t : Bool) : OpcodeRow.Statement (.eor t) := ⟨_, rfl, by cases t <;> decide⟩

end Sys2Proof.Laws
end

