-- ==== Sys2Proof/Laws/Words.lean ====
section
/-! SUPPORT. Sys2Proof/Laws/Words.lean: small lemmas about the words of the two ports and about sample values. -/

namespace Sys2Proof

/-- `s16` is the two's-complement value of the word (00_scope.md R12). -/
theorem s16_eq_toInt (v : Sample) : s16 v = v.toInt := by
  unfold s16
  rw [BitVec.toInt_eq_toNat_cond]
  split <;> split <;> omega

/-- Every sample is in the 16-bit range (R70). -/
theorem s16_range (v : Sample) : -32768 ≤ s16 v ∧ s16 v ≤ 32767 := by
  have := v.isLt
  unfold s16
  split <;> omega

/-- A command token is sent as the canonical word of its row. -/
theorem encode_cmdRow (t : CmdTok) : encode (cmdRow t) = .cw (commandWord t) := by cases t <;> rfl

/-- An output token is shown as the word of its row. -/
theorem encode_outRow (t : OutTok) : encode (outRow t) = .ow (outputWord t) := by cases t <;> rfl

end Sys2Proof
end

