-- ==== Sys2Proof/Tests/Slice0.lean ====
section
/-! SUPPORT. Sys2Proof/Tests/Slice0.lean: tests of one step each with the expected results of 95_test_vectors.md, the
smoke test of the well-formedness checks, and for every obligation with hypotheses a state and operands that meet them. -/

namespace Sys2Proof.Tests

open Sys2Proof.Machine

/-! ### Helpers -/

/-- The state a step answers with. -/
def stateOf (o : Host.Outcome State Fault Refusal) : Option State :=
  match o with
  | .next s => some s
  | .fault _ => none
  | .refused _ => none

/-- The same, with the reset state where there is none. -/
def after (o : Host.Outcome State Fault Refusal) : State := (stateOf o).getD State.reset

theorem eq_next_of_stateOf {o : Host.Outcome State Fault Refusal} {s : State} (h : stateOf o = some s) : o = .next s := by
  cases o <;> simp_all [stateOf]

/-- `F = 4`, `W = 4`, channels unbounded. -/
def p44 : Config.Params := { Config.defaults with F := 4, ok := by decide }
/-- `F = 1`, `W = 8`, channels unbounded. -/
def p18 : Config.Params := { Config.defaults with F := 1, W := 8, ok := by decide }
/-- `F = 3`, `W = 3`, channels unbounded. -/
def p33 : Config.Params := { Config.defaults with F := 3, W := 3, ok := by decide }
/-- `F = 1`, `W = 1`, every channel of capacity 1. -/
def p11 : Config.Params where
  F := 1
  W := 1
  capCI := some 1
  capCU := some 1
  capCC := some 1
  capCO := some 1
  ok := by decide
  capsOk := by decide

/-- The reset state of a block of configuration `p` with the event `e` next. -/
def base (p : Config.Params) (e : Event) : State := { State.reset with cfg := p, sched := [e] }

/-! ### Words written out from their encodings (30_encoding.md R74 to R79) -/

/-- `SMP -1` is `0 1111111111111111` (R75). -/
theorem test_smp_minus_one : decode (.cw 0b01111111111111111#17) = .ok (.smp 0xFFFF#16) ∧ s16 0xFFFF#16 = -1 := by decide
/-- `SMP -32768` is `0 1000000000000000` (R70, R75). -/
theorem test_smp_lowest : decode (.cw 0b01000000000000000#17) = .ok (.smp 0x8000#16) ∧ s16 0x8000#16 = -32768 := by decide
/-- `END` is `1 0000000000000000` (R76). -/
theorem test_end_canonical : decode (.cw 0b10000000000000000#17) = .ok .endRun := by decide
/-- The operand bits of `END` are ignored: `0x1ABCD` (R76). -/
theorem test_end_ignores_operand : decode (.cw 0b11010101111001101#17) = .ok .endRun := by decide
/-- `DAT 0x83` is `0 10000011` (R78). -/
theorem test_dat : decode (.ow 0b010000011#9) = .ok (.dat 0x83#8) := by decide
/-- `EOR trunc=1` is `1 00000001`, `EOR trunc=0` is `1 00000000` (R79). -/
theorem test_eor : decode (.ow 0b100000001#9) = .ok (.eor true) ∧ decode (.ow 0b100000000#9) = .ok (.eor false) := by decide
/-- `0x102` and `0x1FF` are never emitted and are rejected by name (R79, R82). -/
theorem test_never_emitted :
    decode (.ow 0x102#9) = .error (.neverEmitted 0x102#9) ∧ decode (.ow 0x1FF#9) = .error (.neverEmitted 0x1FF#9) := by decide
/-- The words of 95_test_vectors.md 2.1 for `SMP 12345`, `SMP -12345`, `END`, `EOR trunc=1`. -/
theorem test_encode :
    encode (.smp (u16 12345)) = .cw 0x03039#17 ∧ encode (.smp (u16 (-12345))) = .cw 0x0CFC7#17 ∧
    encode .endRun = .cw 0x10000#17 ∧ encode (.eor true) = .ow 0x101#9 := by decide
/-- Words of the opcode table as the host numbers them; a bit above the port's wires makes it no word. -/
theorem test_table_words :
    decodeTableWord 24 0x0FF9C = some (.smp (u16 (-100))) ∧ decodeTableWord 16 0x0FF = some (.dat 0xFF#8) ∧
    decodeTableWord 24 0x20000 = none ∧ decodeTableWord 16 0x200 = none := by decide

/-! ### Well-formedness: for each check an ill-formed term that it refuses -/

/-- At `W = 3` a byte has its upper two bits zero: `0x3F` is the largest, `0x40` is refused (R73, V-PCK-12). -/
theorem test_wellFormed_dat : WellFormed p33 (.dat 0x3F#8) = true ∧ WellFormed p33 (.dat 0x40#8) = false := by decide
/-- At `W = 8` and `W = 4` every byte is well formed (R73). -/
theorem test_wellFormed_full : WellFormed p18 (.dat 0xFF#8) = true ∧ WellFormed p44 (.dat 0xFF#8) = true := by decide
/-- `F = 0`, `W = 0` and `W = 9` are configuration errors (R10, R231). -/
theorem test_build_refuses :
    Config.build 0 4 none none none none = .error .configuration ∧ Config.build 1 0 none none none none = .error .configuration ∧
    Config.build 1 9 none none none none = .error .configuration := by decide
/-- A capacity of 1 is legal, 0 is not (R9); the error for 0 is the model's choice (notes/assumptions/16.md). -/
theorem test_build_capacity :
    Config.build 1 8 none (some 0) none none = .error .capacity ∧ Config.build 1 1 (some 1) (some 1) (some 1) (some 1) = .ok p11 := by
  decide

/-! ### Text (R84, R86) -/

/-- `SMP -1 ; x` and `SMP 0x4E20` (R84). -/
theorem test_readLine :
    readLine ['S', 'M', 'P', ' ', '-', '1', ' ', ';', ' ', 'x'] = .ok (.command (.smp 0xFFFF#16)) ∧
    readLine ['S', 'M', 'P', ' ', '0', 'x', '4', 'E', '2', '0'] = .ok (.command (.smp 20000#16)) := by decide
/-- `.config F=520 W=4` assembles to nothing (R84). -/
theorem test_assemble :
    assemble [['.', 'c', 'o', 'n', 'f', 'i', 'g', ' ', 'F', '=', '5', '2', '0', ' ', 'W', '=', '4'], [], ['E', 'N', 'D']] =
      .ok [0x10000#17] := by decide
/-- `DAT 0xCD` and `EOR trunc=1` (R86). -/
theorem test_writeOutput :
    writeOutput (.dat 0xCD#8) = ['D', 'A', 'T', ' ', '0', 'x', 'C', 'D'] ∧
    writeOutput (.eor true) = ['E', 'O', 'R', ' ', 't', 'r', 'u', 'n', 'c', '=', '1'] := by decide

/-! ### The first instruction after reset -/

/-- A command word placed at port `CI` runs as the first step: its token is in `CI`. -/
theorem test_first_command :
    (stateOf (step (State.reset.withFetchWord 24 0x00064))).map State.ci = some [.smp 100#16] ∧
    (stateOf (step (State.reset.withFetchWord 24 0x10000))).map State.ci = some [.endRun] := by decide
/-- An output word placed at port `CO` is received by the host in the first step. -/
theorem test_first_output :
    (stateOf (step (State.reset.withFetchWord 16 0x083))).map State.received = some [.dat 0x83#8] ∧
    (stateOf (step (State.reset.withFetchWord 16 0x101))).map State.received = some [.eor true] := by decide

/-! ### Steps of the Upsampler: 95_test_vectors.md 2.3 and V-UPS-4, V-UPS-7 -/

/-- UPS.EMIT at phase 1 of the span 100 to 200, `F = 4`: `val(125)`, `PH = 2`. -/
theorem test_upsEmit :
    (stateOf (step { base p44 .upsEmit with xl := 100#16, xr := 200#16, vl := true, act := true, ph := 1 })).map
      (fun s => (s.ph, s.act, s.cu)) = some (2, true, [.val 125]) := by decide +kernel
/-- UPS.EMIT at the last phase: `val(175)`, `PH = 0`, `ACT = 0`, `XL = 200`. -/
theorem test_upsEmit_last :
    (stateOf (step { base p44 .upsEmit with xl := 100#16, xr := 200#16, vl := true, act := true, ph := 3 })).map
      (fun s => (s.ph, s.act, s.xl, s.cu)) = some (0, false, 200#16, [.val 175]) := by decide +kernel
/-- UPS.TAIL leaves `end` in `CI`. -/
theorem test_upsTail :
    (stateOf (step { base p44 .upsTail with xl := 200#16, vl := true, ci := [.endRun] })).map
      (fun s => (s.xr, s.act, s.vl, s.ci)) = some (200#16, true, false, [.endRun]) := by decide +kernel
/-- V-UPS-7: the extreme samples, `F = 2`. -/
theorem test_interpolate : interpolate 2 [0x8000#16, 0x7FFF#16] = [-32768, -1 / 2, 32767, 32767] := by decide +kernel

/-! ### Steps of the Quantizer: 95_test_vectors.md 2.4 and 2.5 -/

/-- `W = 4`, `u = 20000`, `ERR = 1183/2048`: code 13, `ERR = 159/1024`. -/
theorem test_qntStep :
    (stateOf (step { base p44 .qntStep with err := 1183 / 2048, cu := [.val 20000, .endRun] })).map
      (fun s => (s.err, s.cu, s.cc)) = some (159 / 1024, [.endRun], [.code 13]) := by decide +kernel
/-- Overload: `u = 32767`, `ERR = 32753/32768`: code 0, the error takes the multiple of 16. -/
theorem test_qntStep_wraps :
    (stateOf (step { base p44 .qntStep with err := 32753 / 32768, cu := [.val 32767] })).map
      (fun s => (s.err, s.cc)) = some (1081299 / 65536, [.code 0]) := by decide +kernel
/-- QNT.END clears `ERR = 1501/2048`. -/
theorem test_qntEnd :
    (stateOf (step { base p44 .qntEnd with err := 1501 / 2048, cu := [.endRun] })).map
      (fun s => (s.err, s.cu, s.cc)) = some (0, [], [.endRun]) := by decide +kernel
/-- V-QNT-6: a downward wrap, floor of a negative. -/
theorem test_quantize_negative : quantizeFrom 4 0 [-17 / 2, 0] = ([15, 8], -31 / 2) := by decide +kernel
/-- The integer form, last row of 2.5. -/
theorem test_qstepInt : qstepInt 2 8 65536 (-1) = (128, 65281) := by decide

/-! ### Steps of the Packer: 95_test_vectors.md 2.6 and 2.7 -/

/-- The second code of a group sends the byte: `ACC = 0x0C`, code 13. -/
theorem test_pckShift :
    (stateOf (step { base p44 .pckShift with acc := 0x0C#8, cnt := 1, cc := [.code 13] })).map
      (fun s => (s.acc, s.cnt, s.co)) = some (0x00#8, 0, [.dat 0xCD#8]) := by decide +kernel
/-- `W = 1`, `ACC = 0x05`, `CNT = 3`: the pad sends `0xA0` and `end` stays. -/
theorem test_pckPad :
    (stateOf (step { base p11 .pckPad with acc := 0x05#8, cnt := 3, cc := [.endRun] })).map
      (fun s => (s.acc, s.cnt, s.trunc, s.co, s.cc)) = some (0x00#8, 0, true, [.dat 0xA0#8], [.endRun]) := by decide +kernel
/-- PCK.EOR reports the flag and clears it. -/
theorem test_pckEor :
    (stateOf (step { base p44 .pckEor with trunc := true, cc := [.endRun] })).map
      (fun s => (s.trunc, s.cc, s.co)) = some (false, [], [.eor true]) := by decide +kernel
/-- With `CO` full the first code of a group still goes in, the second waits. -/
theorem test_pckShift_room :
    (stateOf (step { base { p44 with capCO := some 1, capsOk := by decide } .pckShift with
      cc := [.code 13], co := [.eor false] })).map (fun s => (s.acc, s.cnt)) = some (0x0D#8, 1) ∧
    (stateOf (step { base { p44 with capCO := some 1, capsOk := by decide } .pckShift with
      acc := 0x0C#8, cnt := 1, cc := [.code 13], co := [.eor false] })).map (fun s => (s.acc, s.cc)) =
        some (0x0C#8, [.code 13]) := by decide +kernel
/-- V-PCK-9 and V-PCK-11. -/
theorem test_pack :
    (pack { p11 with W := 2, ok := by decide } [3, 0, 1, 2, 2]) = ([0xC6#8, 0x80#8], true) ∧
    pack p33 [1, 7, 4] = ([0x0F#8, 0x20#8], true) := by decide
/-- V-RUN-1 (`F = 1`, `W = 3`). -/
theorem test_runOutput :
    runOutput { p33 with F := 1, ok := by decide } [u16 (-20000), u16 20000, u16 5] =
      [.dat 0x0F#8, .dat 0x20#8, .eor true] := by decide +kernel

/-! ### Witnesses: what meets the hypotheses of the obligations -/

theorem witness_opcode_maps :
    (0x0FFFF#17).toNat ≤ 0x0FFFF ∧ 0x10000 ≤ (0x10000#17).toNat ∧ (0x0FF#9).toNat ≤ 0x0FF ∧ (0x100#9).toNat = 0x100 ∧
    (0x101#9).toNat = 0x101 ∧ 0x102 ≤ (0x102#9).toNat ∧
    ({ State.reset with co := [.eor true] } : State).coData = some 0x101#9 := by decide
theorem witness_sample_words : -32768 ≤ (-32768 : Int) ∧ (-32768 : Int) ≤ 32767 ∧ s16 (u16 (-32768)) = -32768 := by decide
theorem witness_decode_encode : decode (.cw 0x1ABCD#17) = .ok .endRun ∧ (0x1ABCD#17 : CommandWord).getLsbD 16 = true := by decide
theorem witness_host_reads : decode (.ow 0x101#9) = .ok (.eor true) ∧ hostRead 0x101#9 = .eor true := by decide
theorem witness_configurations :
    (¬ (1 ≤ 0 ∧ 1 ≤ 4 ∧ 4 ≤ 8)) ∧ Config.build 520 4 none none none none = .ok Config.defaults ∧
    (1 ≤ 1 ∧ 1 ≤ 8 ∧ 8 ≤ 8) ∧ (none : Option Nat) ≠ some 0 := by decide
theorem witness_derived_constants : p44.W = 4 := by decide
theorem witness_reset_input : nextEvent (base p44 .rst) = .rst := by decide
theorem witness_smp_end_accepted : ({ base p11 .hostPut with ci := [] } : State).ciReady = true := by decide
theorem witness_dat_taken : ({ base p44 .hostTake with co := [.dat 0x83#8, .eor false] } : State).co = .dat 0x83#8 :: [.eor false] := by
  decide
theorem witness_eor_taken : ({ base p44 .hostTake with co := [.eor true] } : State).co = .eor true :: [] := by decide
theorem witness_ports_wait :
    ({ base p11 .hostPut with ci := [.endRun] } : State).ciReady = false ∧
    ({ base p44 .hostTake with co := [.eor true] } : State).co.head? ≠ some (.dat 0x83#8) ∧
    (base p44 .hostTake).co.head? ≠ some (.eor true) := by decide
theorem witness_step_runs_decoded :
    (let s : State := { base p11 .hostPut with toSend := [0x00064#17] }
     nextEvent s = .hostPut ∧ s.toSend = 0x00064#17 :: [] ∧ s.ciReady = true ∧ decode (.cw 0x00064#17) = .ok (.smp 100#16)) ∧
    (let s : State := { base p11 .hostTake with co := [.dat 0x83#8] }
     nextEvent s = .hostTake ∧ s.coData = some 0x083#9 ∧ decode (.ow 0x083#9) = .ok (.dat 0x83#8)) := by decide
theorem witness_hostPut :
    (let s : State := { base p11 .hostPut with toSend := [0x10000#17] }
     nextEvent s = .hostPut ∧ s.toSend = 0x10000#17 :: [] ∧ room s.cfg.capCI s.ci = true) ∧
    (nextEvent (base p44 .hostPut) = .hostPut ∧ (base p44 .hostPut).toSend = []) ∧
    (let s : State := { base p11 .hostPut with toSend := [0x10000#17], ci := [.endRun] }
     nextEvent s = .hostPut ∧ room s.cfg.capCI s.ci = false) := by decide
theorem witness_hostTake :
    (let s : State := { base p44 .hostTake with co := [.eor false] }
     nextEvent s = .hostTake ∧ s.co = .eor false :: []) ∧
    (nextEvent (base p44 .hostTake) = .hostTake ∧ (base p44 .hostTake).co = []) := by decide
theorem witness_upsFirst :
    (let s : State := { base p44 .upsFirst with ci := [.smp 0x8000#16, .endRun] }
     nextEvent s = .upsFirst ∧ s.act = false ∧ s.ci = .smp 0x8000#16 :: [.endRun] ∧ s.vl = false) ∧
    (let s : State := { base p44 .upsFirst with ci := [.smp 5#16], act := true }
     nextEvent s = .upsFirst ∧ s.act = true) := by decide
theorem witness_upsNext :
    (let s : State := { base p44 .upsNext with ci := [.smp 0x7FFF#16], vl := true }
     nextEvent s = .upsNext ∧ s.act = false ∧ s.ci = .smp 0x7FFF#16 :: [] ∧ s.vl = true) ∧
    (nextEvent (base p44 .upsNext) = .upsNext ∧ (base p44 .upsNext).vl = false) ∧
    (let s : State := { base p44 .upsNext with ci := [.smp 5#16], vl := true, act := true }
     nextEvent s ∈ upsSteps ∧ s.act = true ∧ stateOf (step s) = some (after (step s))) := by decide +kernel
theorem witness_upsEmit :
    (let s : State := { base p44 .upsEmit with act := true, ph := 3 }
     nextEvent s = .upsEmit ∧ s.act = true ∧ room s.cfg.capCU s.cu = true ∧ s.ph < s.cfg.F) ∧
    (let s : State := { base p11 .upsEmit with act := true, cu := [.endRun] }
     nextEvent s = .upsEmit ∧ room s.cfg.capCU s.cu = false) := by decide
theorem witness_upsTail :
    (let s : State := { base p44 .upsTail with ci := [.endRun], vl := true }
     nextEvent s = .upsTail ∧ s.act = false ∧ s.ci = .endRun :: [] ∧ s.vl = true) ∧
    (nextEvent (base p44 .upsTail) = .upsTail ∧ (base p44 .upsTail).vl = false) := by decide
theorem witness_upsFwd :
    (let s : State := { base p11 .upsFwd with ci := [.endRun] }
     nextEvent s = .upsFwd ∧ s.act = false ∧ s.ci = .endRun :: [] ∧ s.vl = false ∧ room s.cfg.capCU s.cu = true) ∧
    (let s : State := { base p11 .upsFwd with ci := [.endRun], cu := [.endRun] }
     nextEvent s = .upsFwd ∧ room s.cfg.capCU s.cu = false) := by decide
theorem witness_qntStep :
    (let s : State := { base p11 .qntStep with cu := [.val (-1 / 2)] }
     nextEvent s = .qntStep ∧ s.cu = .val (-1 / 2) :: [] ∧ room s.cfg.capCC s.cc = true) ∧
    (let s : State := { base p11 .qntStep with cu := [.val 0], cc := [.endRun] }
     nextEvent s = .qntStep ∧ room s.cfg.capCC s.cc = false) := by decide +kernel
theorem witness_qntEnd :
    (let s : State := { base p11 .qntEnd with cu := [.endRun] }
     nextEvent s = .qntEnd ∧ s.cu = .endRun :: [] ∧ room s.cfg.capCC s.cc = true) ∧
    (let s : State := { base p11 .qntEnd with cu := [.endRun], cc := [.endRun] }
     nextEvent s = .qntEnd ∧ room s.cfg.capCC s.cc = false) := by decide
/-- The clauses of PCK.SHIFT meet at `CNT + 1 = K`. -/
theorem witness_pckShift :
    (let s : State := { base p44 .pckShift with cc := [.code 15] }
     nextEvent s = .pckShift ∧ s.cc = .code 15 :: [] ∧ s.cnt + 1 < codesPerByte s.cfg) ∧
    (let s : State := { base p44 .pckShift with cc := [.code 15], cnt := 1, acc := 0x0F#8 }
     codesPerByte s.cfg ≤ s.cnt + 1 ∧ room s.cfg.capCO s.co = true ∧ s.cnt < codesPerByte s.cfg ∧
       s.acc.toNat < 2 ^ (s.cfg.W * s.cnt) ∧ 15 ≤ mask s.cfg.W) ∧
    (let s : State := { base p11 .pckShift with cc := [.code 1], cnt := 7, co := [.eor false] }
     codesPerByte s.cfg ≤ s.cnt + 1 ∧ room s.cfg.capCO s.co = false) ∧
    (nextEvent (base p44 .pckShift) = .pckShift ∧ (base p44 .pckShift).cc = []) := by decide
theorem witness_pckPad :
    (let s : State := { base p11 .pckPad with cc := [.endRun], cnt := 7 }
     nextEvent s = .pckPad ∧ s.cc = .endRun :: [] ∧ s.cnt ≠ 0 ∧ room s.cfg.capCO s.co = true) ∧
    (nextEvent (base p44 .pckPad) = .pckPad ∧ (base p44 .pckPad).cnt = 0) := by decide
theorem witness_pckEor :
    (let s : State := { base p11 .pckEor with cc := [.endRun], trunc := true }
     nextEvent s = .pckEor ∧ s.cc = .endRun :: [] ∧ s.cnt = 0 ∧ room s.cfg.capCO s.co = true) ∧
    (let s : State := { base p11 .pckEor with cc := [.endRun], cnt := 1 }
     nextEvent s = .pckEor ∧ s.cnt ≠ 0) := by decide
theorem witness_guards :
    enabled .upsFirst (base p44 .upsFirst) = false ∧ enabled .qntEnd { base p44 .qntEnd with cu := [.endRun] } = true := by decide
theorem witness_one_step_per_agent :
    enabled .upsTail { base p44 .upsTail with ci := [.endRun], vl := true } = true ∧ Event.upsTail ∈ upsSteps := by decide
theorem witness_perform_answers :
    (let s : State := { base p44 .pckPad with acc := 0x0C#8, cnt := 1, cc := [.endRun] }
     stateOf (perform .pckPad s) = some (after (perform .pckPad s)) ∧ (after (perform .pckPad s)).trunc ≠ s.trunc) ∧
    stateOf (perform .upsFirst (base p44 .rst)) = some (base p44 .rst) := by decide +kernel
theorem witness_commute :
    (let s : State := { base p11 .upsFwd with ci := [.endRun], cc := [.endRun] }
     Event.upsFwd ≠ .pckEor ∧ enabled .upsFwd s = true ∧ enabled .pckEor s = true) := by decide
theorem witness_no_deadlock :
    ({ base p11 .rst with co := [.eor false] } : State).co ≠ [] ∧ ({ base p11 .rst with act := true } : State).act = true := by
  decide
theorem witness_blockIdle : BlockIdle (base p44 .rst) := by
  refine ⟨rfl, rfl, rfl, rfl, rfl, rfl, rfl, rfl, rfl, rfl, rfl⟩
/-- A state with `XL` unlike the reset state's, and with both registers live: at the boundary of what must agree. -/
theorem witness_sameButDead :
    SameButDead (base p44 .upsFirst) { base p44 .upsFirst with xl := 7#16, xr := 9#16 } ∧
    SameButDead { base p44 .upsTail with vl := true, xl := 7#16 } { base p44 .upsTail with vl := true, xl := 7#16, xr := 9#16 } := by
  refine ⟨⟨rfl, ?_, ?_⟩, ⟨rfl, ?_, ?_⟩⟩ <;> simp [base, State.reset]
theorem witness_inv : ∃ s t, Inv s ∧ step s = .next t := by
  refine ⟨{ base p44 .pckShift with acc := 0x0C#8, cnt := 1, cc := [.code 15], cu := [.val (1 / 2)], ph := 3, act := true },
    _, ?_, eq_next_of_stateOf (Option.some_get (by decide +kernel)).symm⟩
  refine ⟨by decide, by decide, by decide, by decide, ⟨0, by simp [base, State.reset]⟩, by simp [base, State.reset],
    by decide, ?_, ?_, by decide, ?_⟩
  · intro t ht
    simp only [List.mem_singleton] at ht
    subst ht
    exact ⟨⟨2, by simp [base, p44]; norm_num⟩, by norm_num, by norm_num⟩
  · intro t ht
    simp only [List.mem_singleton] at ht
    subst ht
    simp [CodeInRange, base, p44, mask, Config.defaults]
  · simp [Fits, base, p44, Config.defaults]
theorem witness_noOverload : ∃ s t, NoOverload s ∧ step s = .next t := by
  refine ⟨{ base p44 .upsTail with toSend := [0x07777#17], xl := 30583#16, vl := true, ci := [.endRun] },
    _, ?_, eq_next_of_stateOf (Option.some_get (by decide +kernel)).symm⟩
  refine ⟨by simp [base, State.reset], by decide, ?_, by decide, by simp [base, State.reset], ?_, by simp [base, State.reset]⟩
  · intro _; decide
  · intro w hw x hx
    simp only [List.mem_singleton] at hw
    subst hw
    have h : decodeCommand 0x07777#17 = .smp 0x7777#16 := by decide
    rw [h] at hx
    cases hx
    decide
theorem witness_interpolation : (1 : Nat) ≤ 4 ∧ 3 < 4 ∧ ([100#16, 200#16] : List Sample)[0]? = some 100#16 ∧
    ([100#16, 200#16] : List Sample)[0 + 1]? = some 200#16 ∧ ([100#16, 200#16] : List Sample).getLast? = some 200#16 := by decide
theorem witness_integer_form :
    0 ≤ ((mask 4 : Int) * 500 + 6000 + (half 4 : Int) * denom 4) / denom 4 ∧
    ((mask 4 : Int) * 500 + 6000 + (half 4 : Int) * denom 4) / denom 4 ≤ mask 4 := by decide
theorem witness_noWrap : (0 : ℚ) ≤ 1183 / 2048 ∧ (1183 / 2048 : ℚ) < 1 ∧ NoWrap 4 7 ∧ NoWrap 4 (-8) := by
  unfold NoWrap half; norm_num
theorem witness_unpack : (∀ q ∈ [12, 13, 12], q ≤ mask p44.W) ∧ (pack p44 [12, 13, 12]).2 = true ∧ (pack p44 [12, 13]).2 = false := by
  decide
theorem witness_counts : Config.defaults.F = 520 ∧ Config.defaults.W = 4 := by decide
theorem witness_upsampler :
    (let s : State := { base p44 .rst with ci := [.smp 100#16, .endRun, .smp 3#16] }
     s.vl = false ∧ s.act = false ∧ s.ph = 0 ∧ s.cfg.capCU = none ∧ s.ci = [100#16].map .smp ++ .endRun :: [.smp 3#16]) := by decide
theorem witness_quantizer :
    (let s : State := { base p44 .rst with cu := [.val 100, .endRun] }
     s.cfg.capCC = none ∧ s.cu = [100].map .val ++ [.endRun] ∧ s.err = 0 ∧ s.cu = [100].map .val ++ .endRun :: []) := by decide +kernel
theorem witness_packer :
    (let s : State := { base p44 .rst with cc := [.code 12, .endRun] }
     s.acc = 0#8 ∧ s.cnt = 0 ∧ s.trunc = false ∧ s.cfg.capCO = none ∧ (∀ q ∈ [12], q ≤ mask s.cfg.W) ∧
       s.cc = [12].map .code ++ .endRun :: []) := by decide

/-- A run of one sample at `F = 1`, `W = 8`, from an idle block. -/
def oneRun : State := { base p18 .rst with toSend := runsCommands [[100#16]] }
/-- A schedule that does everything there is to do for `oneRun`. -/
def oneRunEvents : List Event :=
  [.hostPut, .upsFirst, .hostPut, .upsTail, .upsEmit, .upsFwd, .qntStep, .qntEnd, .pckShift, .hostTake, .pckEor, .hostTake]
/-- The same for one sample without END. -/
def openRun : State := { base p18 .rst with toSend := [commandWord (.smp 100#16)] }

theorem witness_command_stream :
    BlockIdle oneRun ∧ oneRun.toSend = runsCommands [[100#16]] ∧ Event.rst ∉ oneRunEvents ∧
    ∃ t, runSchedule oneRunEvents oneRun = .next t ∧ Drained t := by
  refine ⟨⟨rfl, rfl, rfl, rfl, rfl, rfl, rfl, rfl, rfl, rfl, rfl⟩, rfl, by decide,
    after (runSchedule oneRunEvents oneRun), eq_next_of_stateOf (by decide +kernel), ?_⟩
  intro e he
  cases e <;> first | decide +kernel | exact absurd rfl he
/-- Two different schedules of the same work, both ending with nothing left to do. -/
theorem witness_every_schedule :
    ∃ evs₁ evs₂ t₁ t₂, evs₁ ≠ evs₂ ∧ Event.rst ∉ evs₁ ∧ Event.rst ∉ evs₂ ∧
      runSchedule evs₁ openRun = .next t₁ ∧ runSchedule evs₂ openRun = .next t₂ ∧ Drained t₁ ∧ Drained t₂ := by
  refine ⟨[.hostPut, .upsFirst], [.upsFirst, .hostPut, .qntStep, .upsFirst],
    after (runSchedule [.hostPut, .upsFirst] openRun),
    after (runSchedule [.upsFirst, .hostPut, .qntStep, .upsFirst] openRun), by decide, by decide, by decide,
    eq_next_of_stateOf (by decide +kernel), eq_next_of_stateOf (by decide +kernel), ?_, ?_⟩ <;>
  · intro e he
    cases e <;> first | decide +kernel | exact absurd rfl he
theorem witness_incomplete_run :
    BlockIdle openRun ∧ openRun.toSend = runsCommands [] ++ ([] ++ [100#16]).map (fun y => commandWord (.smp y)) ∧
    Event.rst ∉ [Event.hostPut, .upsFirst] ∧ ∃ t, runSchedule [.hostPut, .upsFirst] openRun = .next t ∧ Drained t := by
  refine ⟨⟨rfl, rfl, rfl, rfl, rfl, rfl, rfl, rfl, rfl, rfl, rfl⟩, rfl, by decide,
    after (runSchedule [.hostPut, .upsFirst] openRun), eq_next_of_stateOf (by decide +kernel), ?_⟩
  intro e he
  cases e <;> first | decide +kernel | exact absurd rfl he

end Sys2Proof.Tests
end

section
/-! PROOFS. The statements of 00_scope.md: sample words (R12), building a block (R9, R10), derived constants (R8). -/

namespace Sys2Proof

/-- `u16` is the library's word of an integer (00_scope.md R12). -/
theorem u16_eq_ofInt (x : Int) : u16 x = BitVec.ofInt 16 x := by
  apply BitVec.eq_of_toNat_eq
  rw [u16, BitVec.toNat_ofNat, BitVec.toNat_ofInt]
  omega

/-- The word of an integer, as the number on the wires (R12). -/
@[simp] theorem u16_toNat (x : Int) : ((u16 x).toNat : Int) = x % 65536 := by
  rw [u16_eq_ofInt, BitVec.toNat_ofInt]
  omega

/-- Every word is the word of its sample (R70). -/
@[simp] theorem u16_s16 (v : Sample) : u16 (s16 v) = v := by
  rw [u16_eq_ofInt, s16_eq_toInt, BitVec.ofInt_toInt]

/-- Every sample is the sample of its word (R12). -/
theorem s16_u16 {x : Int} (hlo : -32768 ≤ x) (hhi : x ≤ 32767) : s16 (u16 x) = x := by
  rw [s16_eq_toInt, u16_eq_ofInt, BitVec.toInt_ofInt_eq_self (by decide) (by omega) (by omega)]

end Sys2Proof

namespace Sys2Proof.Config

variable {F W : Nat} {capCI capCU capCC capCO : Option Nat}

/-- R10: the ConfigurationError, whatever the capacities are. -/
theorem build_of_not_cfgOk (h : ¬ CfgOk F W) : build F W capCI capCU capCC capCO = .error .configuration :=
  dif_neg h

/-- A block that can be built is the only one with its parameters (R231). -/
theorem build_eq_ok_iff {p : Params} : build F W capCI capCU capCC capCO = .ok p ↔
    p.F = F ∧ p.W = W ∧ p.capCI = capCI ∧ p.capCU = capCU ∧ p.capCC = capCC ∧ p.capCO = capCO := by
  constructor
  · intro h
    unfold build at h
    split at h
    · split at h
      · cases h
        exact ⟨rfl, rfl, rfl, rfl, rfl, rfl⟩
      · cases h
    · cases h
  · rintro ⟨rfl, rfl, rfl, rfl, rfl, rfl⟩
    unfold build
    rw [dif_pos p.ok, dif_pos p.capsOk]

end Sys2Proof.Config

namespace Sys2Proof.Machine

variable (p : Config.Params)

/-- `2 HALF = 2^W` (00_scope.md R8). -/
theorem two_mul_half {W : Nat} (hW : 1 ≤ W) : 2 * half W = 2 ^ W :=
  mul_pow_sub_one (Nat.one_le_iff_ne_zero.1 hW) 2

/-- `MASK + 1 = 2^W` (R8). -/
theorem mask_add_one (W : Nat) : mask W + 1 = 2 ^ W :=
  Nat.sub_add_cancel Nat.one_le_two_pow

/-- `G * 65536 = MASK` (R8). -/
theorem gain_mul (W : Nat) : gain W * 65536 = mask W :=
  div_mul_cancel₀ _ (by norm_num)

/-- A byte takes at least one code (R8). -/
theorem codesPerByte_pos : 1 ≤ codesPerByte p := by
  obtain ⟨-, hW, hW8⟩ := p.ok
  exact Nat.div_pos hW8 hW

/-- `K` codes fit into a byte (R8). -/
theorem width_mul_codesPerByte_le : p.W * codesPerByte p ≤ 8 :=
  Nat.mul_div_le 8 p.W

/-- `K + 1` codes do not fit into a byte (R8). -/
theorem lt_width_mul_codesPerByte_succ : 8 < p.W * (codesPerByte p + 1) := by
  obtain ⟨-, hW, -⟩ := p.ok
  exact Nat.lt_mul_div_succ 8 hW

/-- The row of the default width (R8). -/
theorem constants_of_width_four (hW : p.W = 4) :
    codesPerByte p = 2 ∧ half p.W = 8 ∧ mask p.W = 15 ∧ gain p.W = 15 / 65536 := by
  have hmask : mask 4 = 15 := rfl
  rw [codesPerByte, gain, hW, hmask]
  exact ⟨rfl, rfl, rfl, by norm_num⟩

end Sys2Proof.Machine

namespace Sys2Proof

open Sys2Proof.Machine

/-- Settles O4: both functions are the library's two's-complement conversions. -/
theorem sampleWordsAreTwosComplement : Obligations.SampleWordsAreTwosComplement := by
  refine ⟨fun v => ?_, fun x hlo hhi => ⟨s16_u16 hlo hhi, u16_toNat x⟩⟩
  obtain ⟨hlo, hhi⟩ := s16_range v
  exact ⟨hlo, hhi, u16_s16 v⟩

/-- Settles O7: what `build` answers, for an illegal `F` or `W` and for a given block. -/
theorem onlyLegalConfigurationsAreBuilt : Obligations.OnlyLegalConfigurationsAreBuilt := by
  intro F W capCI capCU capCC capCO
  refine ⟨Config.build_of_not_cfgOk, fun p => Config.build_eq_ok_iff.1, fun ok hCI hCU hCC hCO => ?_⟩
  exact ⟨{ F, W, capCI, capCU, capCC, capCO, ok, capsOk := ⟨hCI, hCU, hCC, hCO⟩ },
    Config.build_eq_ok_iff.2 ⟨rfl, rfl, rfl, rfl, rfl, rfl⟩⟩

/-- Settles O8, constant by constant. -/
theorem derivedConstantsOfEveryWidth : Obligations.DerivedConstantsOfEveryWidth := by
  intro p
  obtain ⟨-, hW, -⟩ := p.ok
  exact ⟨codesPerByte_pos p, width_mul_codesPerByte_le p, lt_width_mul_codesPerByte_succ p, two_mul_half hW,
    mask_add_one p.W, gain_mul p.W, rfl, constants_of_width_four p⟩

end Sys2Proof
end

section
/-! PROOFS. The statements of 10_state.md: the invariants (R32, R33), the flag `TRUNC` (R28) and the sample registers
that nothing reads (R33 (a)). First what one event can do, the host's and the reset input included, as one relation. -/

namespace Sys2Proof

/-- The word shown for an output token decodes to the token's row (30_encoding.md R77 to R79). -/
@[simp] theorem decodeOutput_outputWord (u : OutTok) : decodeOutput (outputWord u) = .ok (outRow u) := by
  cases u with
  | dat b =>
    have hbyte : (b.setWidth 9).extractLsb' 0 8 = b := by
      rw [BitVec.extractLsb'_setWidth_of_le (by decide), BitVec.extractLsb'_eq_self]
    simp [decodeOutput, outputWord, outRow, hbyte]
  | eor f => cases f <;> rfl

/-- Every command word is the row of some command token (R81, R82). -/
theorem exists_cmdRow_eq_decodeCommand (w : CommandWord) : ∃ c : CmdTok, decodeCommand w = cmdRow c := by
  unfold decodeCommand
  split
  · exact ⟨.smp _, rfl⟩
  · exact ⟨.endRun, rfl⟩

end Sys2Proof

namespace Sys2Proof.Machine

variable {e : Event} {s s' t : State}

/-- Running the row of a command token is its transfer through port `CI` (43_commands.md R200, R201). -/
@[simp] theorem exec_cmdRow (c : CmdTok) (s : State) : exec (cmdRow c) s = .next (putCommand c s) := by
  cases c <;> rfl

/-- Running the row of an output token is its transfer through port `CO` (R202, R203). -/
@[simp] theorem exec_outRow (u : OutTok) (s : State) : exec (outRow u) s = .next (takeOutput u s) := by
  cases u <;> rfl

/-! ### What one event does where it changes the state -/

/-- Every way in which an event moves the machine: a transfer at a port (43_commands.md R204, R205), the reset input
(70_reset_and_hazards.md R260), or an internal step of the block. -/
inductive Moves : Event → State → State → Prop
  | put {s : State} {w ws c} : s.toSend = w :: ws → s.ciReady = true → decodeCommand w = cmdRow c →
      Moves .hostPut s { s with toSend := ws, ci := s.ci ++ [c] }
  | take {s : State} {u rest} : s.co = u :: rest →
      Moves .hostTake s { s with co := rest, received := s.received ++ [u] }
  | reset {s : State} : Moves .rst s (applyReset s)
  | internal {e : Event} {s t : State} : Effect e s t → Moves e s t

/-- A move is what `perform` answers. -/
theorem Moves.perform_eq (h : Moves e s t) : perform e s = .next t := by
  cases h with
  | put hsend hready hdec =>
    rw [perform_hostPut hsend hready, hdec, exec_cmdRow, putCommand_ready (by exact hready)]
  | take hco => rw [perform_hostTake hco (decodeOutput_outputWord _), exec_outRow, takeOutput_head hco]
  | reset => rfl
  | internal heff => exact heff.perform_eq

/-- An event whose answer is that of an internal step waits or moves the machine. -/
theorem internal_waits_or_moves (h₁ : e ≠ .hostPut) (h₂ : e ≠ .hostTake) (h₃ : e ≠ .rst) {o : Option State}
    (ho : perform e s = orWait o s) : perform e s = .next s ∨ ∃ t, Moves e s t := by
  rw [orWait_next] at ho
  rcases perform_internal h₁ h₂ h₃ ho with hwait | heff
  · exact .inl (ho.trans (congrArg _ hwait))
  · exact .inr ⟨_, .internal heff⟩

/-- R209: in every state an event waits or moves the machine; nothing stops it. -/
theorem perform_waits_or_moves (e : Event) (s : State) : perform e s = .next s ∨ ∃ t, Moves e s t := by
  cases e with
  | hostPut =>
    cases hsend : s.toSend with
    | nil => exact .inl (perform_hostPut_wait (.inl hsend))
    | cons w ws =>
      cases hready : s.ciReady with
      | false => exact .inl (perform_hostPut_wait (.inr hready))
      | true =>
        obtain ⟨c, hdec⟩ := exists_cmdRow_eq_decodeCommand w
        exact .inr ⟨_, .put hsend hready hdec⟩
  | hostTake =>
    cases hco : s.co with
    | nil => exact .inl (perform_hostTake_wait hco)
    | cons u rest => exact .inr ⟨_, .take hco⟩
  | rst => exact .inr ⟨_, .reset⟩
  | _ => exact internal_waits_or_moves nofun nofun nofun rfl

/-- Everything an event can do: it changes nothing, or it is a move. -/
theorem eq_or_moves_of_perform (h : perform e s = .next t) : t = s ∨ Moves e s t := by
  rcases perform_waits_or_moves e s with hwait | ⟨u, hmove⟩
  · cases hwait.symm.trans h
    exact .inl rfl
  · cases hmove.perform_eq.symm.trans h
    exact .inr hmove

/-! ### The flag -/

/-- R28, R260: what a move does to `TRUNC`. -/
theorem Moves.trunc_eq (h : Moves e s t) : t.trunc = s.trunc ∨
    (e = .pckPad ∧ t.trunc = true) ∨ (e = .pckEor ∧ t.trunc = false) ∨ (e = .rst ∧ t.trunc = false) := by
  cases h with
  | put | take => exact .inl rfl
  | reset => exact .inr (.inr (.inr ⟨rfl, rfl⟩))
  | internal heff =>
    cases heff with
    | upsEmit => exact .inl (nextPhase_trunc s)
    | pckPad => exact .inr (.inl ⟨rfl, rfl⟩)
    | pckEor => exact .inr (.inr (.inl ⟨rfl, rfl⟩))
    | _ => exact .inl rfl

/-! ### Sample registers that nothing reads -/

/-- `SameButDead` with the other state's two registers named. -/
theorem sameButDead_iff : SameButDead s t ↔ ∃ xl xr : Sample, t = { s with xl := xl, xr := xr } ∧
    (s.vl = true ∨ s.act = true → xl = s.xl) ∧ (s.act = true → xr = s.xr) := by
  constructor
  · rintro ⟨ht, hleft, hright⟩
    exact ⟨t.xl, t.xr, ht, hleft, hright⟩
  · rintro ⟨xl, xr, rfl, hleft, hright⟩
    exact ⟨rfl, hleft, hright⟩

theorem SameButDead.refl (s : State) : SameButDead s s := ⟨rfl, fun _ => rfl, fun _ => rfl⟩

theorem SameButDead.symm (h : SameButDead s t) : SameButDead t s := by
  obtain ⟨xl, xr, rfl, hleft, hright⟩ := sameButDead_iff.1 h
  exact ⟨rfl, fun hlive => (hleft hlive).symm, fun hlive => (hright hlive).symm⟩

/-- While a span is emitted both registers are live (R23). -/
theorem SameButDead.eq_of_act (h : SameButDead s t) (hact : s.act = true) : t = s := by
  obtain ⟨ht, hleft, hright⟩ := h
  rw [ht, hleft (.inr hact), hright hact]

/-- The choice of the next event looks at neither register. -/
theorem SameButDead.nextEvent_eq (h : SameButDead s t) : nextEvent t = nextEvent s := by
  obtain ⟨xl, xr, rfl, -, -⟩ := sameButDead_iff.1 h
  rfl

theorem SameButDead.advance (h : SameButDead s t) : SameButDead (advance s) (advance t) := by
  obtain ⟨xl, xr, rfl, hleft, hright⟩ := sameButDead_iff.1 h
  unfold Machine.advance
  cases s.sched <;> exact ⟨rfl, hleft, hright⟩

/-- R33 (a): an internal step that one of the two states takes, the other takes as well. UPS.EMIT and UPS.TAIL alone
read a register, and only one that is live. -/
theorem Effect.sameButDead (heff : Effect e s s') (h : SameButDead s t) :
    ∃ t', Effect e t t' ∧ SameButDead s' t' := by
  obtain ⟨xl, xr, ht, hleft, hright⟩ := sameButDead_iff.1 h
  cases heff with
  | upsEmit hact hroom =>
    rw [h.eq_of_act hact]
    exact ⟨_, .upsEmit hact hroom, .refl _⟩
  | upsTail hact hvl hci =>
    subst ht
    obtain rfl := hleft (.inl hvl)
    exact ⟨_, .upsTail hact hvl hci, .refl _⟩
  | upsFirst hact hvl hci =>
    subst ht
    exact ⟨_, .upsFirst hact hvl hci, rfl, fun _ => rfl, hright⟩
  | upsNext hact hvl hci =>
    subst ht
    exact ⟨_, .upsNext hact hvl hci, rfl, fun _ => hleft (.inl hvl), fun _ => rfl⟩
  | upsFwd hact hvl hci hroom =>
    subst ht
    exact ⟨_, .upsFwd hact hvl hci hroom, rfl, hleft, hright⟩
  | qntStep hcu hroom =>
    subst ht
    exact ⟨_, .qntStep hcu hroom, rfl, hleft, hright⟩
  | qntEnd hcu hroom =>
    subst ht
    exact ⟨_, .qntEnd hcu hroom, rfl, hleft, hright⟩
  | pckShift hcc hcnt =>
    subst ht
    exact ⟨_, .pckShift hcc hcnt, rfl, hleft, hright⟩
  | pckSend hcc hcnt hroom =>
    subst ht
    exact ⟨_, .pckSend hcc hcnt hroom, rfl, hleft, hright⟩
  | pckPad hcc hcnt hroom =>
    subst ht
    exact ⟨_, .pckPad hcc hcnt hroom, rfl, hleft, hright⟩
  | pckEor hcc hcnt hroom =>
    subst ht
    exact ⟨_, .pckEor hcc hcnt hroom, rfl, hleft, hright⟩

/-- R33 (a): a move of one of the two states is a move of the other. -/
theorem Moves.sameButDead (hmove : Moves e s s') (h : SameButDead s t) :
    ∃ t', Moves e t t' ∧ SameButDead s' t' := by
  cases hmove with
  | put hsend hready hdec =>
    obtain ⟨xl, xr, rfl, hleft, hright⟩ := sameButDead_iff.1 h
    exact ⟨_, .put hsend hready hdec, rfl, hleft, hright⟩
  | take hco =>
    obtain ⟨xl, xr, rfl, hleft, hright⟩ := sameButDead_iff.1 h
    exact ⟨_, .take hco, rfl, hleft, hright⟩
  | reset =>
    obtain ⟨xl, xr, rfl, -, -⟩ := sameButDead_iff.1 h
    exact ⟨_, .reset, .refl _⟩
  | internal heff =>
    obtain ⟨t', heff', h'⟩ := heff.sameButDead h
    exact ⟨t', .internal heff', h'⟩

/-- R270: one event on two states that differ in dead registers only: both wait or both move. -/
theorem SameButDead.perform (h : SameButDead s t) (e : Event) :
    ∃ s' t', perform e s = .next s' ∧ perform e t = .next t' ∧ SameButDead s' t' := by
  rcases perform_waits_or_moves e s with hs | ⟨s', hs⟩
  · rcases perform_waits_or_moves e t with ht | ⟨t', ht⟩
    · exact ⟨s, t, hs, ht, h⟩
    · obtain ⟨s', hs', h'⟩ := ht.sameButDead h.symm
      exact ⟨s', t', hs'.perform_eq, ht.perform_eq, h'.symm⟩
  · obtain ⟨t', ht', h'⟩ := hs.sameButDead h
    exact ⟨s', t', hs.perform_eq, ht'.perform_eq, h'⟩

end Sys2Proof.Machine

namespace Sys2Proof.Machine

/-! ### Upsampled values (20_memory.md R51) -/

variable {F W : Nat}

/-- The numerator at phase `j` is between `F` times the lowest and `F` times the highest sample (40_upsampler.md
R108). -/
theorem interpNumerator_range (a b : Sample) {j : Nat} (hj : j ≤ F) :
    -32768 * (F : Int) ≤ interpNumerator F a b j ∧ interpNumerator F a b j ≤ 32767 * F := by
  obtain ⟨ha, ha'⟩ := s16_range a
  obtain ⟨hb, hb'⟩ := s16_range b
  have hj' : 0 ≤ (F : Int) - j := by omega
  unfold interpNumerator
  constructor <;> nlinarith

/-- A value is its numerator over `F` (R102). -/
theorem interpValue_mul (hF : 1 ≤ F) (a b : Sample) (j : Nat) :
    interpValue F a b j * F = interpNumerator F a b j :=
  div_mul_cancel₀ _ (by positivity)

/-- R51: the value at a phase of a span is a token of `CU`. -/
theorem valueInRange_interpValue (hF : 1 ≤ F) (a b : Sample) {j : Nat} (hj : j ≤ F) :
    ValueInRange F (.val (interpValue F a b j)) := by
  obtain ⟨hlo, hhi⟩ := interpNumerator_range a b hj
  have hpos : (0 : ℚ) < F := by positivity
  refine ⟨⟨_, interpValue_mul hF a b j⟩, ?_, ?_⟩
  · rw [interpValue, le_div_iff₀ hpos]
    exact_mod_cast hlo
  · rw [interpValue, div_le_iff₀ hpos]
    exact_mod_cast hhi

/-! ### Codes and the carried error (41_quantizer.md) -/

/-- The wrapped code is the floored modulus (R134). -/
theorem wrapCode_cast (W : Nat) (Q : Int) : (wrapCode W Q : Int) = Q % (2 ^ W : Nat) :=
  Int.toNat_of_nonneg (Int.emod_nonneg _ (by positivity))

/-- R136: a wrapped code has `W` bits. -/
theorem wrapCode_le_mask (W : Nat) (Q : Int) : wrapCode W Q ≤ mask W := by
  have hlt : (wrapCode W Q : Int) < (2 ^ W : Nat) := wrapCode_cast W Q ▸ Int.emod_lt_of_pos _ (by positivity)
  have hmask := mask_add_one W
  omega

/-- The wrapped code of a sum that is not negative is at most the sum (R142). -/
theorem wrapCode_floor_le {v : ℚ} (hv : 0 ≤ v) : (wrapCode W ⌊v⌋ : ℚ) ≤ v := by
  have hle : (wrapCode W ⌊v⌋ : Int) ≤ ⌊v⌋ := by
    obtain ⟨n, hn⟩ := Int.eq_ofNat_of_zero_le (Int.floor_nonneg.2 hv)
    rw [wrapCode_cast, hn]
    exact_mod_cast Nat.mod_le n _
  calc (wrapCode W ⌊v⌋ : ℚ) = ((wrapCode W ⌊v⌋ : Int) : ℚ) := by norm_cast
    _ ≤ (⌊v⌋ : ℚ) := by exact_mod_cast hle
    _ ≤ v := Int.floor_le v

/-- The residual of one quantizer step (R135). -/
theorem qstep_snd (W : Nat) (e s : ℚ) : (qstep W e s).2 = s + e + half W - (qstep W e s).1 := by
  simp only [qstep]
  ring

/-- A scaled value in the range of a sample is not below `-HALF` (R132). -/
theorem neg_half_le_scaleValue (hW : 1 ≤ W) {u : ℚ} (hu : -32768 ≤ u) : -(half W : ℚ) ≤ scaleValue W u := by
  have hhalf : (half W : ℚ) * 2 = mask W + 1 := by
    have := two_mul_half hW
    have := mask_add_one W
    exact_mod_cast (by omega : half W * 2 = mask W + 1)
  have hmask : (0 : ℚ) ≤ mask W := by positivity
  unfold scaleValue gain
  nlinarith

/-- R142: the residual is not negative where the scaled value is not below `-HALF`. -/
theorem qstep_snd_nonneg {e s : ℚ} (he : 0 ≤ e) (hs : -(half W : ℚ) ≤ s) : 0 ≤ (qstep W e s).2 := by
  have hle : ((qstep W e s).1 : ℚ) ≤ s + e + half W := wrapCode_floor_le (by linarith)
  rw [qstep_snd]
  linarith

/-- R33 (e), R140: over the common denominator the residual is an integer when the value and the error are. -/
theorem qstep_snd_mul_denom {e u : ℚ} {E U : Int} (he : e * denom F = E) (hu : u * F = U) :
    (qstep W e (scaleValue W u)).2 * denom F =
      ((mask W * U + E + (half W - (qstep W e (scaleValue W u)).1) * denom F : Int) : ℚ) := by
  have hs : scaleValue W u * denom F = mask W * U := by
    rw [scaleValue, denom, ← hu, ← gain_mul]
    push_cast
    ring
  rw [qstep_snd]
  push_cast
  rw [← hs, ← he]
  ring

/-! ### The byte under assembly (42_packer.md) -/

/-- The bits of a code and of those before it (R27). -/
theorem shiftIn_lt {acc : Byte} {q c : Nat} (hacc : acc.toNat < 2 ^ (W * c)) (hq : q ≤ mask W) :
    (shiftIn W acc q).toNat < 2 ^ (W * (c + 1)) := by
  have hq' : q < 2 ^ W := by have := mask_add_one W; omega
  rw [shiftIn, BitVec.toNat_or, BitVec.toNat_shiftLeft, BitVec.toNat_ofNat]
  refine Nat.or_lt_two_pow ((Nat.mod_le _ _).trans_lt ?_) ((Nat.mod_le _ _).trans_lt ?_)
  · rw [Nat.shiftLeft_eq, Nat.mul_succ, pow_add]
    exact Nat.mul_lt_mul_of_pos_right hacc (by positivity)
  · exact hq'.trans_le (Nat.pow_le_pow_right two_pos (Nat.le_mul_of_pos_right W c.succ_pos))

/-- A padded byte has the bits of a full group (R178, R73). -/
theorem padOut_lt {p : Config.Params} {acc : Byte} {c : Nat} (hc : c ≤ codesPerByte p)
    (hacc : acc.toNat < 2 ^ (p.W * c)) : (padOut p acc c).toNat < 2 ^ (p.W * codesPerByte p) := by
  have hsplit : p.W * codesPerByte p = p.W * c + p.W * (codesPerByte p - c) := by
    rw [← Nat.mul_add, Nat.add_sub_cancel' hc]
  rw [padOut, BitVec.toNat_shiftLeft, hsplit, pow_add, Nat.shiftLeft_eq]
  exact (Nat.mod_le _ _).trans_lt (Nat.mul_lt_mul_of_pos_right hacc (by positivity))

/-! ### Channels (20_memory.md R54) -/

section Channels

variable {α : Type} {cap : Option Nat} {c : List α} {x : α} {P : α → Prop}

theorem fits_nil (cap : Option Nat) : Fits cap ([] : List α) := fun n _ => n.zero_le

/-- A token is pushed only where there is room for it. -/
theorem Fits.push (h : room cap c = true) (x : α) : Fits cap (c ++ [x]) := fun n hn => by
  simpa using (room_iff cap c).1 h n hn

theorem Fits.of_cons (h : Fits cap (x :: c)) : Fits cap c := fun n hn => (Nat.le_succ _).trans (h n hn)

theorem forall_mem_push (hc : ∀ y ∈ c, P y) (hx : P x) : ∀ y ∈ c ++ [x], P y :=
  List.forall_mem_append.2 ⟨hc, List.forall_mem_singleton.2 hx⟩

end Channels

/-! ### The invariants -/

variable {e : Event} {s t : State}

/-- R33 at reset, for every configuration: what the invariants say of a block in its reset state (R32). -/
theorem BlockIdle.inv (h : BlockIdle s) : Inv s := by
  obtain ⟨-, -, hph, herr, hacc, hcnt, htrunc, hci, hcu, hcc, hco⟩ := h
  exact {
    phase_active := fun hne => absurd hph hne
    phase_lt := hph ▸ s.cfg.ok.1
    count_lt := hcnt ▸ codesPerByte_pos s.cfg
    acc_lt := by simp [hacc, hcnt]
    err_multiple := ⟨0, by simp [herr]⟩
    err_nonneg := herr.ge
    trunc_reported := fun htrue => absurd htrue (by simp [htrunc])
    values := by simp [hcu]
    codes := by simp [hcc]
    outputs := by simp [hco]
    fits := by simp only [hci, hcu, hcc, hco, fits_nil, and_self] }

/-- `Inv` does not speak of the schedule or of the counter of free values. -/
theorem Inv.advance (h : Inv s) : Inv (advance s) := by
  unfold Machine.advance
  split <;> exact { h with }

/-- The reset input leaves a block in its reset state (R260). -/
theorem blockIdle_applyReset (s : State) : BlockIdle (applyReset s) :=
  ⟨rfl, rfl, rfl, rfl, rfl, rfl, rfl, rfl, rfl, rfl, rfl⟩

/-- R33 (f): a code at the head of `CC` shows that nothing is left to report. -/
theorem Inv.trunc_eq_false {q rest} (h : Inv s) (hcc : s.cc = .code q :: rest) : s.trunc = false := by
  cases htrunc : s.trunc with
  | false => rfl
  | true => simpa [hcc] using h.trunc_reported htrunc

/-- A token pushed into `CC` leaves what R33 (f) says of its head. -/
theorem Inv.trunc_reported_push (h : Inv s) (x : CodeTok) (htrunc : s.trunc = true) :
    (s.cc ++ [x]).head? = some .endRun ∧ s.cnt = 0 := by
  obtain ⟨hhead, hcnt⟩ := h.trunc_reported htrunc
  exact ⟨by simp [hhead], hcnt⟩

/-- The bits that a code adds to the group, with the code still at the head of `CC` (R33 (d)). -/
theorem Inv.shiftIn_lt {q rest} (h : Inv s) (hcc : s.cc = .code q :: rest) :
    (shiftIn s.cfg.W s.acc q).toNat < 2 ^ (s.cfg.W * (s.cnt + 1)) :=
  Machine.shiftIn_lt h.acc_lt (h.codes (.code q) (by simp [hcc]))

/-- R33 (b), (c): the phase advances inside a span, and a span ends with phase 0 (R112). -/
theorem Inv.nextPhase (h : Inv s) (hact : s.act = true) : Inv (nextPhase s) := by
  unfold Machine.nextPhase
  split
  · next hlt => exact { h with phase_active := fun _ => hact, phase_lt := hlt }
  · exact { h with phase_active := nofun, phase_lt := s.cfg.ok.1 }

/-- A value pushed into `CU` where there is room for it (R51, R54). -/
theorem Inv.pushValue (h : Inv s) {x : ValTok} (hroom : room s.cfg.capCU s.cu = true) (hx : ValueInRange s.cfg.F x) :
    Inv { s with cu := s.cu ++ [x] } :=
  { h with
    values := forall_mem_push h.values hx
    fits := ⟨h.fits.1, .push hroom x, h.fits.2.2⟩ }

/-- Every internal step of the block keeps the invariants: for each step, the parts that it touches. -/
theorem Effect.inv (heff : Effect e s t) (h : Inv s) : Inv t := by
  obtain ⟨fitsCI, fitsCU, fitsCC, fitsCO⟩ := h.fits
  have hF : 1 ≤ s.cfg.F := s.cfg.ok.1
  have hK : 0 < codesPerByte s.cfg := codesPerByte_pos s.cfg
  cases heff with
  | upsFirst hact hvl hci =>
    exact { h with fits := ⟨.of_cons (hci ▸ fitsCI), fitsCU, fitsCC, fitsCO⟩ }
  | upsNext hact hvl hci =>
    exact { h with
      phase_active := fun _ => rfl
      phase_lt := hF
      fits := ⟨.of_cons (hci ▸ fitsCI), fitsCU, fitsCC, fitsCO⟩ }
  | upsEmit hact hroom =>
    have hvalue := valueInRange_interpValue hF s.xl s.xr h.phase_lt.le
    rw [← nextPhase_cu s]
    exact (h.nextPhase hact).pushValue (by simpa using hroom) (by simpa using hvalue)
  | upsTail hact hvl hci =>
    exact { h with phase_active := fun _ => rfl, phase_lt := hF }
  | upsFwd hact hvl hci hroom =>
    exact { h with
      values := forall_mem_push h.values trivial
      fits := ⟨.of_cons (hci ▸ fitsCI), .push hroom _, fitsCC, fitsCO⟩ }
  | @qntStep _ u rest hcu hroom =>
    obtain ⟨hu, hrest⟩ := List.forall_mem_cons.1 (hcu ▸ h.values)
    obtain ⟨⟨U, hU⟩, hlo, -⟩ := hu
    obtain ⟨E, hE⟩ := h.err_multiple
    exact { h with
      err_multiple := ⟨_, qstep_snd_mul_denom hE hU⟩
      err_nonneg := qstep_snd_nonneg h.err_nonneg (neg_half_le_scaleValue s.cfg.ok.2.1 hlo)
      trunc_reported := h.trunc_reported_push _
      values := hrest
      codes := forall_mem_push h.codes (wrapCode_le_mask _ _)
      fits := ⟨fitsCI, .of_cons (hcu ▸ fitsCU), .push hroom _, fitsCO⟩ }
  | qntEnd hcu hroom =>
    exact { h with
      err_multiple := ⟨0, by simp⟩
      err_nonneg := le_rfl
      trunc_reported := h.trunc_reported_push _
      values := (List.forall_mem_cons.1 (hcu ▸ h.values)).2
      codes := forall_mem_push h.codes trivial
      fits := ⟨fitsCI, .of_cons (hcu ▸ fitsCU), .push hroom _, fitsCO⟩ }
  | pckShift hcc hlt =>
    exact { h with
      count_lt := hlt
      acc_lt := h.shiftIn_lt hcc
      trunc_reported := fun htrunc => absurd htrunc (by simp [h.trunc_eq_false hcc])
      codes := (List.forall_mem_cons.1 (hcc ▸ h.codes)).2
      fits := ⟨fitsCI, fitsCU, .of_cons (hcc ▸ fitsCC), fitsCO⟩ }
  | pckSend hcc hlast hroom =>
    have hfull : s.cnt + 1 = codesPerByte s.cfg := by have := h.count_lt; omega
    exact { h with
      count_lt := hK
      acc_lt := by simp
      trunc_reported := fun htrunc => absurd htrunc (by simp [h.trunc_eq_false hcc])
      codes := (List.forall_mem_cons.1 (hcc ▸ h.codes)).2
      outputs := forall_mem_push h.outputs (decide_eq_true (hfull ▸ h.shiftIn_lt hcc))
      fits := ⟨fitsCI, fitsCU, .of_cons (hcc ▸ fitsCC), .push hroom _⟩ }
  | pckPad hcc hcnt hroom =>
    exact { h with
      count_lt := hK
      acc_lt := by simp
      trunc_reported := fun _ => ⟨by simp [hcc], rfl⟩
      outputs := forall_mem_push h.outputs (decide_eq_true (padOut_lt h.count_lt.le h.acc_lt))
      fits := ⟨fitsCI, fitsCU, fitsCC, .push hroom _⟩ }
  | pckEor hcc hcnt hroom =>
    exact { h with
      trunc_reported := nofun
      codes := (List.forall_mem_cons.1 (hcc ▸ h.codes)).2
      outputs := forall_mem_push h.outputs rfl
      fits := ⟨fitsCI, fitsCU, .of_cons (hcc ▸ fitsCC), .push hroom _⟩ }

/-- Every move keeps the invariants: the host's two, the reset input's and the block's own. -/
theorem Moves.inv (hmove : Moves e s t) (h : Inv s) : Inv t := by
  cases hmove with
  | put hsend hready hdec => exact { h with fits := ⟨.push hready _, h.fits.2⟩ }
  | take hco =>
    obtain ⟨fitsCI, fitsCU, fitsCC, fitsCO⟩ := h.fits
    exact { h with
      outputs := (List.forall_mem_cons.1 (hco ▸ h.outputs)).2
      fits := ⟨fitsCI, fitsCU, fitsCC, .of_cons (hco ▸ fitsCO)⟩ }
  | reset => exact (blockIdle_applyReset s).inv
  | internal heff => exact heff.inv h

end Sys2Proof.Machine

namespace Sys2Proof

open Sys2Proof.Machine

/-- Settles O40: the reset state is a block in its reset state, of the default configuration. -/
theorem invariantsHoldAtReset : Obligations.InvariantsHoldAtReset :=
  BlockIdle.inv ⟨rfl, rfl, rfl, rfl, rfl, rfl, rfl, rfl, rfl, rfl, rfl⟩

/-- Settles O34, by what each move does to the flag. -/
theorem onlyPadAndEorChangeTrunc : Obligations.OnlyPadAndEorChangeTrunc := by
  intro e s t hperform hchanged
  rcases eq_or_moves_of_perform hperform with rfl | hmove
  · exact absurd rfl hchanged
  · exact hmove.trunc_eq.resolve_left hchanged

/-- Settles O41: an event waits or moves, and every move keeps the invariants. -/
theorem everyStepKeepsTheInvariants : Obligations.EveryStepKeepsTheInvariants := by
  intro s t hinv hstep
  rcases eq_or_moves_of_perform hstep with rfl | hmove
  · exact hinv.advance
  · exact hmove.inv hinv.advance

/-- Settles O42: both states choose the same event, and it does the same to both. -/
theorem unwrittenSamplesNeverShow : Obligations.UnwrittenSamplesNeverShow := by
  intro s t h
  rw [step_eq, step_eq, h.nextEvent_eq]
  exact h.advance.perform (nextEvent s)

end Sys2Proof
end

section
/-! PROOFS. The statements of 20_memory.md: who touches what (R61), channels first in first out (R54, R59), the ports
(R60) and determinacy (R62). Every move is one agent's update: registers set, tokens taken from the agent's input
channel, tokens appended to its output channel. Updates of different agents commute, and neither takes away what the
other needs; determinacy is then the Church-Rosser property of the library. -/

namespace Sys2Proof.Machine

variable {e : Event} {s s' t : State}

/-! ### Guards and moves -/

theorem sampleWaits_iff : sampleWaits s = true ↔ ∃ x rest, s.ci = .smp x :: rest := by
  unfold sampleWaits
  rcases s.ci with _ | ⟨_ | _, _⟩ <;> simp

theorem valueWaits_iff : valueWaits s = true ↔ ∃ u rest, s.cu = .val u :: rest := by
  unfold valueWaits
  rcases s.cu with _ | ⟨_ | _, _⟩ <;> simp

theorem codeWaits_iff : codeWaits s = true ↔ ∃ q rest, s.cc = .code q :: rest := by
  unfold codeWaits
  rcases s.cc with _ | ⟨_ | _, _⟩ <;> simp

/-- R209: where the machine moves, the guard of the event holds. -/
theorem Moves.enabled (h : Moves e s t) : enabled e s = true := by
  cases h with
  | put hsend hready => simp [Machine.enabled, hsend, hready]
  | take hco => simp [Machine.enabled, State.coValid, hco]
  | reset => rfl
  | internal heff =>
    cases heff with
    | upsFirst hact hvl hci | upsNext hact hvl hci => simp [Machine.enabled, hact, hvl, sampleWaits_iff, hci]
    | upsEmit hact hroom => simp [Machine.enabled, hact, hroom]
    | upsTail hact hvl hci => simp [Machine.enabled, hact, hvl, hci]
    | upsFwd hact hvl hci hroom => simp [Machine.enabled, hact, hvl, hci, hroom]
    | qntStep hcu hroom => simp [Machine.enabled, valueWaits_iff, hcu, hroom]
    | qntEnd hcu hroom => simp [Machine.enabled, hcu, hroom]
    | pckShift hcc hcnt => simp [Machine.enabled, codeWaits_iff, hcc, hcnt]
    | pckSend hcc hcnt hroom => simp [Machine.enabled, codeWaits_iff, hcc, hroom]
    | pckPad hcc hcnt hroom | pckEor hcc hcnt hroom => simp [Machine.enabled, hcc, hcnt, hroom]

/-- R209: where the guard of an event holds, the machine moves. -/
theorem exists_moves_of_enabled (h : enabled e s = true) : ∃ t, Moves e s t := by
  cases e <;> simp only [enabled, Bool.and_eq_true, Bool.or_eq_true, Bool.not_eq_true', decide_eq_true_eq, beq_iff_eq,
    bne_iff_ne, List.head?_eq_some_iff, sampleWaits_iff, valueWaits_iff, codeWaits_iff] at h
  case hostPut =>
    obtain ⟨hsend, hready⟩ := h
    obtain ⟨w, ws, hsend⟩ := List.exists_cons_of_ne_nil (List.isEmpty_eq_false_iff.1 hsend)
    obtain ⟨c, hdec⟩ := exists_cmdRow_eq_decodeCommand w
    exact ⟨_, .put hsend hready hdec⟩
  case hostTake =>
    obtain ⟨u, rest, hco⟩ := List.exists_cons_of_ne_nil (l := s.co) (by simpa [State.coValid] using h)
    exact ⟨_, .take hco⟩
  case upsFirst =>
    obtain ⟨⟨hact, x, rest, hci⟩, hvl⟩ := h
    exact ⟨_, .internal (.upsFirst hact hvl hci)⟩
  case upsNext =>
    obtain ⟨⟨hact, x, rest, hci⟩, hvl⟩ := h
    exact ⟨_, .internal (.upsNext hact hvl hci)⟩
  case upsEmit => exact ⟨_, .internal (.upsEmit h.1 h.2)⟩
  case upsTail =>
    obtain ⟨⟨hact, rest, hci⟩, hvl⟩ := h
    exact ⟨_, .internal (.upsTail hact hvl hci)⟩
  case upsFwd =>
    obtain ⟨⟨⟨hact, rest, hci⟩, hvl⟩, hroom⟩ := h
    exact ⟨_, .internal (.upsFwd hact hvl hci hroom)⟩
  case qntStep =>
    obtain ⟨⟨u, rest, hcu⟩, hroom⟩ := h
    exact ⟨_, .internal (.qntStep hcu hroom)⟩
  case qntEnd =>
    obtain ⟨⟨rest, hcu⟩, hroom⟩ := h
    exact ⟨_, .internal (.qntEnd hcu hroom)⟩
  case pckShift =>
    obtain ⟨⟨q, rest, hcc⟩, hroom⟩ := h
    by_cases hcnt : s.cnt + 1 < codesPerByte s.cfg
    · exact ⟨_, .internal (.pckShift hcc hcnt)⟩
    · exact ⟨_, .internal (.pckSend hcc hcnt (hroom.resolve_left hcnt))⟩
  case pckPad =>
    obtain ⟨⟨⟨rest, hcc⟩, hcnt⟩, hroom⟩ := h
    exact ⟨_, .internal (.pckPad hcc hcnt hroom)⟩
  case pckEor =>
    obtain ⟨⟨⟨rest, hcc⟩, hcnt⟩, hroom⟩ := h
    exact ⟨_, .internal (.pckEor hcc hcnt hroom)⟩
  case rst => exact ⟨_, .reset⟩

/-- An event moves the machine to one state. -/
theorem Moves.unique (h : Moves e s s') (ht : perform e s = .next t) : t = s' := by
  cases ht.symm.trans h.perform_eq
  rfl

theorem Moves.of_eq {t' : State} (h : Moves e s t) (ht : t = t') : Moves e s t' := ht ▸ h

/-! ### Each agent's update -/

/-- The agents of R61; the host counts as two, one at each port, since its two steps share nothing. -/
inductive Agent where
  | hostPut | ups | qnt | pck | hostTake

/-- The one step of an agent that the state leaves open: every other step of the agent has a false guard (Part 2 of
40_upsampler.md and 42_packer.md, Part 3 of 41_quantizer.md). -/
def Agent.stepIn (s : State) : Agent → Event
  | .hostPut => .hostPut
  | .ups =>
    if s.act then .upsEmit
    else if sampleWaits s then (if s.vl then .upsNext else .upsFirst)
    else (if s.vl then .upsTail else .upsFwd)
  | .qnt => if valueWaits s then .qntStep else .qntEnd
  | .pck => if codeWaits s then .pckShift else if s.cnt = 0 then .pckEor else .pckPad
  | .hostTake => .hostTake

/-- What a step does to the state, in terms of its agent alone: the values its registers get, how many tokens leave its
input channel and which tokens enter its output channel (R61). -/
inductive Update where
  | hostPut (toSend : List CommandWord) (out : CmdTok)
  | ups (xl xr : Sample) (vl act : Bool) (ph : Nat) (taken : Nat) (out : List ValTok)
  | qnt (err : ℚ) (out : CodeTok)
  | pck (acc : Byte) (cnt : Nat) (trunc : Bool) (taken : Nat) (out : List OutTok)
  | hostTake (u : OutTok)

namespace Update

@[simp] def agent : Update → Agent
  | hostPut .. => .hostPut
  | ups .. => .ups
  | qnt .. => .qnt
  | pck .. => .pck
  | hostTake .. => .hostTake

@[simp] def apply (s : State) : Update → State
  | hostPut toSend out => { s with toSend, ci := s.ci ++ [out] }
  | ups xl xr vl act ph taken out => { s with xl, xr, vl, act, ph, ci := s.ci.drop taken, cu := s.cu ++ out }
  | qnt err out => { s with err, cu := s.cu.drop 1, cc := s.cc ++ [out] }
  | pck acc cnt trunc taken out => { s with acc, cnt, trunc, cc := s.cc.drop taken, co := s.co ++ out }
  | hostTake u => { s with co := s.co.drop 1, received := s.received ++ [u] }

/-- The tokens taken are there. -/
@[simp] def Supplied (s : State) : Update → Prop
  | hostPut .. => True
  | ups _ _ _ _ _ taken _ => taken ≤ s.ci.length
  | qnt .. => 1 ≤ s.cu.length
  | pck _ _ _ taken _ => taken ≤ s.cc.length
  | hostTake .. => 1 ≤ s.co.length

/-- R61: the updates of two different agents commute. Neighbours share one channel, which one of them shortens at its
head and the other extends at its end. -/
theorem apply_comm {U V : Update} (hne : U.agent ≠ V.agent) (hU : U.Supplied s) (hV : V.Supplied s) :
    U.apply (V.apply s) = V.apply (U.apply s) := by
  cases U with
  | hostPut =>
    cases V with
    | hostPut => exact absurd rfl hne
    | ups => simp [List.drop_append_of_le_length hV]
    | qnt | pck | hostTake => rfl
  | ups =>
    cases V with
    | ups => exact absurd rfl hne
    | hostPut => simp [List.drop_append_of_le_length hU]
    | qnt => simp [List.drop_append_of_le_length hV]
    | pck | hostTake => rfl
  | qnt =>
    cases V with
    | qnt => exact absurd rfl hne
    | ups => simp [List.drop_append_of_le_length hU]
    | pck => simp [List.drop_append_of_le_length hV]
    | hostPut | hostTake => rfl
  | pck =>
    cases V with
    | pck => exact absurd rfl hne
    | qnt => simp [List.drop_append_of_le_length hU]
    | hostTake => simp [List.drop_append_of_le_length hV]
    | hostPut | ups => rfl
  | hostTake =>
    cases V with
    | hostTake => exact absurd rfl hne
    | pck => simp [List.drop_append_of_le_length hU]
    | hostPut | ups | qnt => rfl

/-- No update looks at the schedule. -/
theorem apply_sched (U : Update) (s : State) (es : List Event) :
    U.apply { s with sched := es } = { U.apply s with sched := es } := by
  cases U <;> rfl

end Update

/-! ### What an agent needs of a state -/

/-- The state `s'` offers an agent all that `s` does: the same registers, at least the same tokens at the head of its
input channel, and room in its output channel where `s` has it. -/
def Agent.Offers (s s' : State) : Agent → Prop
  | .hostPut => s'.toSend = s.toSend ∧ (room s.cfg.capCI s.ci = true → room s'.cfg.capCI s'.ci = true)
  | .ups => s'.cfg = s.cfg ∧ s'.xl = s.xl ∧ s'.xr = s.xr ∧ s'.vl = s.vl ∧ s'.act = s.act ∧ s'.ph = s.ph ∧
      s.ci <+: s'.ci ∧ (room s.cfg.capCU s.cu = true → room s'.cfg.capCU s'.cu = true)
  | .qnt => s'.cfg = s.cfg ∧ s'.err = s.err ∧
      s.cu <+: s'.cu ∧ (room s.cfg.capCC s.cc = true → room s'.cfg.capCC s'.cc = true)
  | .pck => s'.cfg = s.cfg ∧ s'.acc = s.acc ∧ s'.cnt = s.cnt ∧ s'.trunc = s.trunc ∧
      s.cc <+: s'.cc ∧ (room s.cfg.capCO s.co = true → room s'.cfg.capCO s'.co = true)
  | .hostTake => s.co <+: s'.co

/-- No agent needs anything of the schedule. -/
theorem Agent.offers_sched (A : Agent) (s : State) (es es' : List Event) :
    A.Offers { s with sched := es } { s with sched := es' } := by
  cases A <;> simp [Offers]

/-- Taking tokens from a channel keeps its room (R54). -/
theorem room_drop {α : Type} {cap : Option Nat} {c : List α} (n : Nat) (hroom : room cap c = true) :
    room cap (c.drop n) = true :=
  (room_iff _ _).2 fun m hm => (c.drop_sublist n).length_le.trans_lt ((room_iff cap c).1 hroom m hm)

/-- R61: an update takes nothing away that another agent needs. -/
theorem Update.offers_apply {A : Agent} {U : Update} (hne : A ≠ U.agent) (s : State) : A.Offers s (U.apply s) := by
  cases U with
  | hostPut =>
    cases A with
    | hostPut => exact absurd rfl hne
    | _ => simp [Agent.Offers]
  | ups =>
    cases A with
    | ups => exact absurd rfl hne
    | hostPut => simpa [Agent.Offers, -List.drop_one] using room_drop _
    | _ => simp [Agent.Offers]
  | qnt =>
    cases A with
    | qnt => exact absurd rfl hne
    | ups => simpa [Agent.Offers, -List.drop_one] using room_drop 1
    | _ => simp [Agent.Offers]
  | pck =>
    cases A with
    | pck => exact absurd rfl hne
    | qnt => simpa [Agent.Offers, -List.drop_one] using room_drop _
    | _ => simp [Agent.Offers]
  | hostTake =>
    cases A with
    | hostTake => exact absurd rfl hne
    | pck => simpa [Agent.Offers, -List.drop_one] using room_drop 1
    | _ => simp [Agent.Offers]

/-- A channel that has grown at its end still has its oldest token. -/
theorem exists_eq_cons_of_isPrefix {α : Type} {c c' rest : List α} {x : α} (h : c <+: c') (hc : c = x :: rest) :
    ∃ rest', c' = x :: rest' := by
  obtain ⟨more, rfl⟩ := h
  exact ⟨rest ++ more, by rw [hc, List.cons_append]⟩

/-- In the state `s` the event `e` is a step whose whole effect is the update `U`, and so it is in every state that
offers the agent all that `s` does. -/
structure Update.Describes (U : Update) (e : Event) (s : State) : Prop where
  event_eq : e = U.agent.stepIn s
  supplied : U.Supplied s
  moves : ∀ s', U.agent.Offers s s' → Moves e s' (U.apply s')

/-- A UPS step reads and writes the UPS registers, the head of `CI` and the room in `CU` (R110 to R114). -/
theorem Effect.exists_describes_ups (h : Effect e s t) (he : e ∈ upsSteps) : ∃ U : Update, U.Describes e s := by
  cases h with
  | @upsFirst _ x rest hact hvl hci =>
    refine ⟨.ups x s.xr true false s.ph 1 [],
      by simp [Agent.stepIn, hact, hvl, sampleWaits_iff, hci], by simp [hci], ?_⟩
    rintro s' ⟨hcfg, hxl, hxr, hvl', hact', hph, hin, hout⟩
    obtain ⟨rest', hci'⟩ := exists_eq_cons_of_isPrefix hin hci
    exact (Moves.internal (.upsFirst (hact'.trans hact) (hvl'.trans hvl) hci')).of_eq (by simp [*])
  | @upsNext _ x rest hact hvl hci =>
    refine ⟨.ups s.xl x true true 0 1 [], by simp [Agent.stepIn, hact, hvl, sampleWaits_iff, hci], by simp [hci], ?_⟩
    rintro s' ⟨hcfg, hxl, hxr, hvl', hact', hph, hin, hout⟩
    obtain ⟨rest', hci'⟩ := exists_eq_cons_of_isPrefix hin hci
    exact (Moves.internal (.upsNext (hact'.trans hact) (hvl'.trans hvl) hci')).of_eq (by simp [*])
  | upsEmit hact hroom =>
    refine ⟨.ups (nextPhase s).xl s.xr s.vl (nextPhase s).act (nextPhase s).ph 0
      [.val (interpValue s.cfg.F s.xl s.xr s.ph)], by simp [Agent.stepIn, hact], Nat.zero_le _, ?_⟩
    rintro s' ⟨hcfg, hxl, hxr, hvl', hact', hph, hin, hout⟩
    exact (Moves.internal (.upsEmit (hact'.trans hact) (hout hroom))).of_eq (by simp [*])
  | upsTail hact hvl hci =>
    refine ⟨.ups s.xl s.xl false true 0 0 [],
      by simp [Agent.stepIn, hact, hvl, sampleWaits_iff, hci], Nat.zero_le _, ?_⟩
    rintro s' ⟨hcfg, hxl, hxr, hvl', hact', hph, hin, hout⟩
    obtain ⟨rest', hci'⟩ := exists_eq_cons_of_isPrefix hin hci
    exact (Moves.internal (.upsTail (hact'.trans hact) (hvl'.trans hvl) hci')).of_eq (by simp [*])
  | upsFwd hact hvl hci hroom =>
    refine ⟨.ups s.xl s.xr false false s.ph 1 [.endRun],
      by simp [Agent.stepIn, hact, hvl, sampleWaits_iff, hci], by simp [hci], ?_⟩
    rintro s' ⟨hcfg, hxl, hxr, hvl', hact', hph, hin, hout⟩
    obtain ⟨rest', hci'⟩ := exists_eq_cons_of_isPrefix hin hci
    exact (Moves.internal (.upsFwd (hact'.trans hact) (hvl'.trans hvl) hci' (hout hroom))).of_eq (by simp [*])
  | _ => simp [upsSteps] at he

/-- A QNT step reads and writes `ERR`, the head of `CU` and the room in `CC` (R144, R145). -/
theorem Effect.exists_describes_qnt (h : Effect e s t) (he : e ∈ qntSteps) : ∃ U : Update, U.Describes e s := by
  cases h with
  | @qntStep _ u rest hcu hroom =>
    refine ⟨.qnt (qstep s.cfg.W s.err (scaleValue s.cfg.W u)).2
        (.code (qstep s.cfg.W s.err (scaleValue s.cfg.W u)).1),
      by simp [Agent.stepIn, valueWaits_iff, hcu], by simp [hcu], ?_⟩
    rintro s' ⟨hcfg, herr, hin, hout⟩
    obtain ⟨rest', hcu'⟩ := exists_eq_cons_of_isPrefix hin hcu
    exact (Moves.internal (.qntStep hcu' (hout hroom))).of_eq (by simp [*])
  | qntEnd hcu hroom =>
    refine ⟨.qnt 0 .endRun, by simp [Agent.stepIn, valueWaits_iff, hcu], by simp [hcu], ?_⟩
    rintro s' ⟨hcfg, herr, hin, hout⟩
    obtain ⟨rest', hcu'⟩ := exists_eq_cons_of_isPrefix hin hcu
    exact (Moves.internal (.qntEnd hcu' (hout hroom))).of_eq (by simp [*])
  | _ => simp [qntSteps] at he

/-- A PCK step reads and writes the PCK registers, the head of `CC` and the room in `CO` (R177 to R179). -/
theorem Effect.exists_describes_pck (h : Effect e s t) (he : e ∈ pckSteps) : ∃ U : Update, U.Describes e s := by
  cases h with
  | @pckShift _ q rest hcc hcnt =>
    refine ⟨.pck (shiftIn s.cfg.W s.acc q) (s.cnt + 1) s.trunc 1 [],
      by simp [Agent.stepIn, codeWaits_iff, hcc], by simp [hcc], ?_⟩
    rintro s' ⟨hcfg, hacc, hcnt', htrunc, hin, hout⟩
    obtain ⟨rest', hcc'⟩ := exists_eq_cons_of_isPrefix hin hcc
    exact (Moves.internal (.pckShift hcc' (by rwa [hcnt', hcfg]))).of_eq (by simp [*])
  | @pckSend _ q rest hcc hcnt hroom =>
    refine ⟨.pck 0#8 0 s.trunc 1 [.dat (shiftIn s.cfg.W s.acc q)],
      by simp [Agent.stepIn, codeWaits_iff, hcc], by simp [hcc], ?_⟩
    rintro s' ⟨hcfg, hacc, hcnt', htrunc, hin, hout⟩
    obtain ⟨rest', hcc'⟩ := exists_eq_cons_of_isPrefix hin hcc
    exact (Moves.internal (.pckSend hcc' (by rwa [hcnt', hcfg]) (hout hroom))).of_eq (by simp [*])
  | pckPad hcc hcnt hroom =>
    refine ⟨.pck 0#8 0 true 0 [.dat (padOut s.cfg s.acc s.cnt)],
      by simp [Agent.stepIn, codeWaits_iff, hcc, hcnt], Nat.zero_le _, ?_⟩
    rintro s' ⟨hcfg, hacc, hcnt', htrunc, hin, hout⟩
    obtain ⟨rest', hcc'⟩ := exists_eq_cons_of_isPrefix hin hcc
    exact (Moves.internal (.pckPad hcc' (hcnt' ▸ hcnt) (hout hroom))).of_eq (by simp [*])
  | pckEor hcc hcnt hroom =>
    refine ⟨.pck s.acc 0 false 1 [.eor s.trunc], by simp [Agent.stepIn, codeWaits_iff, hcc, hcnt], by simp [hcc], ?_⟩
    rintro s' ⟨hcfg, hacc, hcnt', htrunc, hin, hout⟩
    obtain ⟨rest', hcc'⟩ := exists_eq_cons_of_isPrefix hin hcc
    exact (Moves.internal (.pckEor hcc' (hcnt'.trans hcnt) (hout hroom))).of_eq (by simp [*])
  | _ => simp [pckSteps] at he

/-- An internal step is a step of one of the three agents. -/
theorem Effect.mem_agent_steps (h : Effect e s t) : e ∈ upsSteps ∨ e ∈ qntSteps ∨ e ∈ pckSteps := by
  cases h <;> decide

/-- Every move but the reset is described by an update of its agent. -/
theorem Moves.exists_describes (h : Moves e s t) (hrst : e ≠ .rst) : ∃ U : Update, U.Describes e s := by
  cases h with
  | @put _ w ws c hsend hready hdec =>
    refine ⟨.hostPut ws c, rfl, trivial, ?_⟩
    rintro s' ⟨hsend', hout⟩
    exact .put (hsend'.trans hsend) (hout hready) hdec
  | @take _ u rest hco =>
    refine ⟨.hostTake u, rfl, by simp [hco], fun s' hin => ?_⟩
    obtain ⟨rest', hco'⟩ := exists_eq_cons_of_isPrefix hin hco
    exact (Moves.take hco').of_eq (by simp [hco'])
  | reset => exact absurd rfl hrst
  | internal heff =>
    rcases heff.mem_agent_steps with hups | hqnt | hpck
    · exact heff.exists_describes_ups hups
    · exact heff.exists_describes_qnt hqnt
    · exact heff.exists_describes_pck hpck

namespace Update.Describes

variable {a b : Event} {U V : Update}

theorem moves_self (h : U.Describes e s) : Moves e s (U.apply s) :=
  h.moves s (U.agent.offers_sched s s.sched s.sched)

/-- The update describes the event under every other schedule as well. -/
theorem moves_sched (h : U.Describes e s) (es : List Event) :
    Moves e { s with sched := es } (U.apply { s with sched := es }) :=
  h.moves _ (U.agent.offers_sched s s.sched es)

/-- Different steps that can be taken in one state are steps of different agents. -/
theorem agent_ne (ha : U.Describes a s) (hb : V.Describes b s) (hne : a ≠ b) : U.agent ≠ V.agent := fun hagent =>
  hne (by rw [ha.event_eq, hb.event_eq, hagent])

/-- A step can still be taken, with the same update, after another step. -/
theorem moves_apply (ha : U.Describes a s) (hb : V.Describes b s) (hne : a ≠ b) :
    Moves a (V.apply s) (U.apply (V.apply s)) :=
  ha.moves _ (offers_apply (ha.agent_ne hb hne) s)

end Update.Describes

/-- R61, R62: two different steps that can both be taken close a diamond. -/
theorem Moves.diamond {a b : Event} {sa sb : State} (ha : Moves a s sa) (hb : Moves b s sb) (hne : a ≠ b)
    (hra : a ≠ .rst) (hrb : b ≠ .rst) : ∃ t, Moves b sa t ∧ Moves a sb t := by
  obtain ⟨U, hU⟩ := ha.exists_describes hra
  obtain ⟨V, hV⟩ := hb.exists_describes hrb
  obtain rfl := ha.unique hU.moves_self.perform_eq
  obtain rfl := hb.unique hV.moves_self.perform_eq
  have hcomm := Update.apply_comm (hU.agent_ne hV hne) hU.supplied hV.supplied
  exact ⟨_, hV.moves_apply hU hne.symm, hcomm ▸ hU.moves_apply hV hne⟩

/-! ### Schedules -/

/-- Some step of the twelve is taken. -/
def TakesStep (s t : State) : Prop := ∃ e, e ≠ .rst ∧ Moves e s t

/-- The steps taken from one state lead to states that join again in at most one step each. -/
theorem TakesStep.diamond {a b c : State} (hb : TakesStep a b) (hc : TakesStep a c) :
    ∃ d, Relation.ReflGen TakesStep b d ∧ Relation.ReflTransGen TakesStep c d := by
  obtain ⟨e, he, hb⟩ := hb
  obtain ⟨f, hf, hc⟩ := hc
  by_cases hef : e = f
  · subst hef
    obtain rfl := hb.unique hc.perform_eq
    exact ⟨_, .refl, .refl⟩
  · obtain ⟨d, hbd, hcd⟩ := hb.diamond hc hef he hf
    exact ⟨d, .single ⟨f, hf, hbd⟩, .single ⟨e, he, hcd⟩⟩

/-- No guard looks at the schedule. -/
@[simp] theorem enabled_sched (e : Event) (s : State) (es : List Event) :
    enabled e { s with sched := es } = enabled e s := by
  cases e <;> rfl

/-- Nothing can be done in a drained state. -/
theorem Drained.eq_of_steps (h : Drained s) (hst : Relation.ReflTransGen TakesStep s t) : t = s := by
  rcases hst.cases_head with rfl | ⟨u, ⟨e, he, hmove⟩, -⟩
  · rfl
  · exact absurd hmove.enabled (by simp [h e he])

/-- What a step does, it does under every schedule. -/
theorem perform_sched (hrst : e ≠ .rst) (h : perform e s = .next t) (es : List Event) :
    perform e { s with sched := es } = .next { t with sched := es } := by
  rcases eq_or_moves_of_perform h with rfl | hmove
  · rcases perform_waits_or_moves e { t with sched := es } with hwait | ⟨u, hmove⟩
    · exact hwait
    · obtain ⟨U, hU⟩ := hmove.exists_describes hrst
      have hself := (hU.moves_sched t.sched).unique h
      rw [hU.moves_self.perform_eq, U.apply_sched, ← hself]
  · obtain ⟨U, hU⟩ := hmove.exists_describes hrst
    obtain rfl := hmove.unique hU.moves_self.perform_eq
    rw [(hU.moves_sched es).perform_eq, U.apply_sched]

theorem run_succ_of_step {M : Host.Core} {s t : M.State} {k : Nat} (h : M.step s = .next t) :
    M.run (k + 1) s = M.run k t := by
  simp only [Host.Core.run, h]

/-- A schedule performs its first event and runs on. -/
theorem runSchedule_cons {es : List Event} (hrst : e ≠ .rst) (h : perform e s = .next t) :
    runSchedule (e :: es) s = runSchedule es t :=
  run_succ_of_step (M := Sys2Proof.core) (perform_sched hrst h es)

/-- A schedule without a reset takes some of its steps, in order, and is then used up. -/
theorem exists_steps_of_runSchedule {evs : List Event} (hrst : .rst ∉ evs) (h : runSchedule evs s = .next t) :
    ∃ u, Relation.ReflTransGen TakesStep s u ∧ t = { u with sched := [] } := by
  induction evs generalizing s with
  | nil =>
    cases h
    exact ⟨s, .refl, rfl⟩
  | cons e es ih =>
    obtain ⟨he, hes⟩ := List.ne_and_not_mem_of_not_mem_cons hrst
    rcases perform_waits_or_moves e s with hwait | ⟨s', hmove⟩
    · rw [runSchedule_cons he.symm hwait] at h
      exact ih hes h
    · rw [runSchedule_cons he.symm hmove.perform_eq] at h
      obtain ⟨u, hsteps, rfl⟩ := ih hes h
      exact ⟨u, hsteps.head ⟨e, he.symm, hmove⟩, rfl⟩

/-! ### Who touches what -/

/-- R20, R61: a UPS step writes the UPS registers, `CI` and `CU`. -/
theorem Moves.ups_frame (h : Moves e s t) (he : e ∈ upsSteps) : t = { s with
    xl := t.xl, xr := t.xr, vl := t.vl, act := t.act, ph := t.ph, ci := t.ci, cu := t.cu } := by
  cases h with
  | put | take | reset => simp [upsSteps] at he
  | internal heff =>
    cases heff with
    | upsEmit => simp
    | upsFirst | upsNext | upsTail | upsFwd => rfl
    | _ => simp [upsSteps] at he

/-- R20, R61: a QNT step writes `ERR`, `CU` and `CC`. -/
theorem Moves.qnt_frame (h : Moves e s t) (he : e ∈ qntSteps) :
    t = { s with err := t.err, cu := t.cu, cc := t.cc } := by
  cases h with
  | put | take | reset => simp [qntSteps] at he
  | internal heff =>
    cases heff with
    | qntStep | qntEnd => rfl
    | _ => simp [qntSteps] at he

/-- R20, R61: a PCK step writes `ACC`, `CNT`, `TRUNC`, `CC` and `CO`. -/
theorem Moves.pck_frame (h : Moves e s t) (he : e ∈ pckSteps) :
    t = { s with acc := t.acc, cnt := t.cnt, trunc := t.trunc, cc := t.cc, co := t.co } := by
  cases h with
  | put | take | reset => simp [pckSteps] at he
  | internal heff =>
    cases heff with
    | pckShift | pckSend | pckPad | pckEor => rfl
    | _ => simp [pckSteps] at he

theorem Moves.hostPut_frame (h : Moves .hostPut s t) : t = { s with toSend := t.toSend, ci := t.ci } := by
  cases h with
  | put => rfl
  | internal heff => cases heff

theorem Moves.hostTake_frame (h : Moves .hostTake s t) : t = { s with co := t.co, received := t.received } := by
  cases h with
  | take => rfl
  | internal heff => cases heff

/-- R7, R215: no move, the reset included, changes the configuration or the schedule. -/
theorem Moves.cfg_sched (h : Moves e s t) : t.cfg = s.cfg ∧ t.sched = s.sched := by
  cases h with
  | put | take | reset => exact ⟨rfl, rfl⟩
  | internal heff =>
    cases heff with
    | upsEmit => exact ⟨nextPhase_cfg s, nextPhase_sched s⟩
    | _ => exact ⟨rfl, rfl⟩

/-! ### How channels move -/

section Channels

variable {α : Type} {producers consumers : List Event} {c c' : List α} {x : α}

theorem MovesOnly.unchanged (h : c' = c) : MovesOnly producers consumers e c c' := .inl h

theorem MovesOnly.push (he : e ∈ producers) : MovesOnly producers consumers e c (c ++ [x]) :=
  .inr (.inl ⟨he, x, rfl⟩)

theorem MovesOnly.pop (he : e ∈ consumers) (h : c = x :: c') : MovesOnly producers consumers e c c' :=
  .inr (.inr ⟨he, x, h⟩)

end Channels

/-- How one event moves all four channels (R50 to R54, R59). -/
def ChannelsMove (e : Event) (s t : State) : Prop :=
  MovesOnly [.hostPut] [.upsFirst, .upsNext, .upsFwd] e s.ci t.ci ∧
  MovesOnly [.upsEmit, .upsFwd] [.qntStep, .qntEnd] e s.cu t.cu ∧
  MovesOnly [.qntStep, .qntEnd] [.pckShift, .pckEor] e s.cc t.cc ∧
  MovesOnly [.pckShift, .pckPad, .pckEor] [.hostTake] e s.co t.co

/-- R54, R59: an internal step takes the oldest token of the channel it consumes, appends one to the channel it
produces, or leaves them. -/
theorem Effect.channelsMove (h : Effect e s t) : ChannelsMove e s t := by
  cases h with
  | upsFirst _ _ hci | upsNext _ _ hci =>
    exact ⟨.pop (by decide) hci, .unchanged rfl, .unchanged rfl, .unchanged rfl⟩
  | upsEmit =>
    exact ⟨.unchanged (nextPhase_ci s), .push (by decide), .unchanged (nextPhase_cc s), .unchanged (nextPhase_co s)⟩
  | upsTail => exact ⟨.unchanged rfl, .unchanged rfl, .unchanged rfl, .unchanged rfl⟩
  | upsFwd _ _ hci => exact ⟨.pop (by decide) hci, .push (by decide), .unchanged rfl, .unchanged rfl⟩
  | qntStep hcu | qntEnd hcu => exact ⟨.unchanged rfl, .pop (by decide) hcu, .push (by decide), .unchanged rfl⟩
  | pckShift hcc => exact ⟨.unchanged rfl, .unchanged rfl, .pop (by decide) hcc, .unchanged rfl⟩
  | pckSend hcc | pckEor hcc => exact ⟨.unchanged rfl, .unchanged rfl, .pop (by decide) hcc, .push (by decide)⟩
  | pckPad => exact ⟨.unchanged rfl, .unchanged rfl, .unchanged rfl, .push (by decide)⟩

/-- R54, R59, the transfers at the ports included. -/
theorem Moves.channelsMove (h : Moves e s t) (hrst : e ≠ .rst) : ChannelsMove e s t := by
  cases h with
  | put => exact ⟨.push (by decide), .unchanged rfl, .unchanged rfl, .unchanged rfl⟩
  | take hco => exact ⟨.unchanged rfl, .unchanged rfl, .unchanged rfl, .pop (by decide) hco⟩
  | reset => exact absurd rfl hrst
  | internal heff => exact heff.channelsMove

end Sys2Proof.Machine

namespace Sys2Proof

open Sys2Proof.Machine

/-- Settles O15: without room the command is not accepted, and only the word shown is transferred. -/
theorem portsWaitWithoutAHandshake : Obligations.PortsWaitWithoutAHandshake := by
  refine ⟨fun x s hfull => ⟨?_, ?_⟩, fun b s hother => ?_, fun f s hother => ?_⟩
  · exact (exec_cmdRow (.smp x) s).trans (congrArg _ (putCommand_full hfull))
  · exact (exec_cmdRow .endRun s).trans (congrArg _ (putCommand_full hfull))
  · exact (exec_outRow (.dat b) s).trans (congrArg _ (takeOutput_other hother))
  · exact (exec_outRow (.eor f) s).trans (congrArg _ (takeOutput_other hother))

/-- Settles O32: an event waits, and then touches nothing, or it moves inside its agent's frame. -/
theorem eachAgentTouchesOnlyItsOwn : Obligations.EachAgentTouchesOnlyItsOwn := by
  intro e s t hperform
  rcases eq_or_moves_of_perform hperform with rfl | hmove
  · exact ⟨fun _ => rfl, fun _ => rfl, fun _ => rfl, fun _ => rfl, fun _ => rfl, rfl, rfl⟩
  · refine ⟨hmove.ups_frame, hmove.qnt_frame, hmove.pck_frame, ?_, ?_, hmove.cfg_sched⟩
    · rintro rfl
      exact hmove.hostPut_frame
    · rintro rfl
      exact hmove.hostTake_frame

/-- Settles O33: a waiting event moves no channel, and every move is one token at most per channel. -/
theorem channelsAreFirstInFirstOut : Obligations.ChannelsAreFirstInFirstOut := by
  intro e s t hrst hperform
  rcases eq_or_moves_of_perform hperform with rfl | hmove
  · exact ⟨.unchanged rfl, .unchanged rfl, .unchanged rfl, .unchanged rfl⟩
  · exact hmove.channelsMove hrst

/-- Settles O35, from the diamond of two moves. -/
theorem enabledStepsCommute : Obligations.EnabledStepsCommute := by
  intro s a b hne hra hrb ha hb
  obtain ⟨sa, hsa⟩ := exists_moves_of_enabled ha
  obtain ⟨sb, hsb⟩ := exists_moves_of_enabled hb
  obtain ⟨t, hbt, hat⟩ := hsa.diamond hsb hne hra hrb
  exact ⟨sa, sb, t, hsa.perform_eq, hsb.perform_eq, hbt.enabled, hat.enabled, hbt.perform_eq, hat.perform_eq⟩

/-- Settles O36: both schedules take steps from the same state, by the diamond their ends join, and nothing can be done
in either. -/
theorem everyScheduleEndsInOneState : Obligations.EveryScheduleEndsInOneState := by
  intro s t₁ t₂ evs₁ evs₂ hrst₁ hrst₂ hrun₁ hrun₂ hdrained₁ hdrained₂
  obtain ⟨u₁, hsteps₁, rfl⟩ := exists_steps_of_runSchedule hrst₁ hrun₁
  obtain ⟨u₂, hsteps₂, rfl⟩ := exists_steps_of_runSchedule hrst₂ hrun₂
  obtain ⟨d, hjoin₁, hjoin₂⟩ := Relation.church_rosser (fun _ _ _ => TakesStep.diamond) hsteps₁ hsteps₂
  have hdrained₁ : Drained u₁ := by simpa [Drained] using hdrained₁
  have hdrained₂ : Drained u₂ := by simpa [Drained] using hdrained₂
  rw [← hdrained₁.eq_of_steps hjoin₁, hdrained₂.eq_of_steps hjoin₂]

end Sys2Proof
end

section
/-! PROOFS. The statements of 30_encoding.md: the words of both ports, read by what number stands on the wires (R74 to
R82), and the written form of commands (R84). -/

namespace Sys2Proof

/-! ### Command words -/

/-- Bit 16 of a command word, the selector of R74, is set from `0x10000` on. -/
theorem commandWord_selector (w : CommandWord) : w.getLsbD 16 = decide (0x10000 ≤ w.toNat) := by
  exact (BitVec.msb_eq_getLsbD_last w).symm.trans (BitVec.msb_eq_decide w)

/-- The lower half of the command words is SMP (R75, R81). -/
theorem decodeCommand_of_lt {w : CommandWord} (h : w.toNat < 0x10000) :
    decodeCommand w = .smp (BitVec.ofNat 16 w.toNat) := by
  rw [decodeCommand, commandWord_selector, if_pos (decide_eq_false h.not_ge)]
  rfl

/-- The upper half of the command words is END (R76, R81). -/
theorem decodeCommand_of_le {w : CommandWord} (h : 0x10000 ≤ w.toNat) : decodeCommand w = .endRun := by
  rw [decodeCommand, commandWord_selector, decide_eq_true h]
  rfl

/-- The number of an `SMP` word is that of its sample (R75). -/
theorem commandWord_smp_toNat (x : Sample) : (commandWord (.smp x)).toNat = x.toNat :=
  BitVec.toNat_setWidth_of_le (by decide)

/-- The canonical word of a command decodes to the command's row (R74 to R76). -/
@[simp] theorem decodeCommand_commandWord (t : CmdTok) : decodeCommand (commandWord t) = cmdRow t := by
  cases t with
  | smp x =>
    have hlt : (commandWord (.smp x)).toNat < 0x10000 := commandWord_smp_toNat x ▸ x.isLt
    rw [decodeCommand_of_lt hlt, commandWord_smp_toNat, BitVec.ofNat_toNat, BitVec.setWidth_eq, cmdRow]
  | endRun => rfl

/-- A command word is the canonical word of its row, or it is an END word (R76). -/
theorem encode_decodeCommand (w : CommandWord) :
    encode (decodeCommand w) = .cw w ∨ decodeCommand w = .endRun ∧ w.getLsbD 16 = true := by
  rcases lt_or_ge w.toNat 0x10000 with h | h
  · refine .inl ?_
    rw [decodeCommand_of_lt h, encode, PortWord.cw.injEq]
    apply BitVec.eq_of_toNat_eq
    rw [BitVec.toNat_setWidth_of_le (by decide), BitVec.toNat_ofNat, Nat.mod_eq_of_lt h]
  · exact .inr ⟨decodeCommand_of_le h, (commandWord_selector w).trans (decide_eq_true h)⟩

/-! ### Output words -/

/-- Bit 8 of an output word, the selector of R77, is set from `0x100` on. -/
theorem outputWord_selector (w : OutputWord) : w.getLsbD 8 = decide (0x100 ≤ w.toNat) := by
  exact (BitVec.msb_eq_getLsbD_last w).symm.trans (BitVec.msb_eq_decide w)

/-- The output words below `0x100` are DAT (R78, R81). -/
theorem decodeOutput_of_lt {w : OutputWord} (h : w.toNat < 0x100) :
    decodeOutput w = .ok (.dat (BitVec.ofNat 8 w.toNat)) := by
  rw [decodeOutput, outputWord_selector, if_pos (decide_eq_false h.not_ge)]
  rfl

/-- The output words above `0x101` are refused (notes/assumptions/9.md). -/
theorem decodeOutput_of_ge {w : OutputWord} (h : 0x102 ≤ w.toNat) : decodeOutput w = .error (.neverEmitted w) := by
  have hselector : w.getLsbD 8 = true := by
    rw [outputWord_selector, decide_eq_true_eq]
    omega
  have hupper : w.extractLsb' 1 7 ≠ 0#7 := fun hzero => by
    have hnum := congrArg BitVec.toNat hzero
    have hlt := w.isLt
    rw [BitVec.extractLsb'_toNat, Nat.shiftRight_eq_div_pow, BitVec.toNat_ofNat] at hnum
    omega
  rw [decodeOutput, hselector, if_neg (by decide), if_neg hupper]

/-- The number of a `DAT` word is that of its byte (R78). -/
theorem outputWord_dat_toNat (b : Byte) : (outputWord (.dat b)).toNat = b.toNat :=
  BitVec.toNat_setWidth_of_le (by decide)

/-- The words that decode are the words of the output tokens (R77 to R79). -/
theorem exists_outputWord_of_decodeOutput {w : OutputWord} {i : Instr} (h : decodeOutput w = .ok i) :
    ∃ u : OutTok, w = outputWord u ∧ i = outRow u := by
  suffices hword : ∃ u : OutTok, w = outputWord u by
    obtain ⟨u, rfl⟩ := hword
    rw [decodeOutput_outputWord, Except.ok.injEq] at h
    exact ⟨u, rfl, h.symm⟩
  rcases lt_or_ge w.toNat 0x100 with hlt | hge
  · refine ⟨.dat (BitVec.ofNat 8 w.toNat), BitVec.eq_of_toNat_eq ?_⟩
    rw [outputWord_dat_toNat, BitVec.toNat_ofNat, Nat.mod_eq_of_lt hlt]
  · rcases lt_or_ge w.toNat 0x102 with hlt | hge'
    · obtain heq | heq : w.toNat = 0x100 ∨ w.toNat = 0x101 := by omega
      · exact ⟨.eor false, BitVec.eq_of_toNat_eq heq⟩
      · exact ⟨.eor true, BitVec.eq_of_toNat_eq heq⟩
    · rw [decodeOutput_of_ge hge'] at h
      cases h

/-- The block shows no word above `0x101` (R79, R81). -/
theorem outputWord_toNat_le (u : OutTok) : (outputWord u).toNat ≤ 0x101 := by
  cases u with
  | dat b =>
    have hlt := b.isLt
    rw [outputWord_dat_toNat]
    omega
  | eor f => cases f <;> decide

/-- The host reads an output word below `0x100` as its byte (R77). -/
theorem hostRead_of_lt {w : OutputWord} (h : w.toNat < 0x100) : hostRead w = .dat (BitVec.ofNat 8 w.toNat) := by
  rw [hostRead, outputWord_selector, if_pos (decide_eq_false h.not_ge)]
  rfl

/-- The host reads the word shown for a token as the token (R77). -/
@[simp] theorem hostRead_outputWord (u : OutTok) : hostRead (outputWord u) = u := by
  cases u with
  | dat b =>
    have hlt : (outputWord (.dat b)).toNat < 0x100 := outputWord_dat_toNat b ▸ b.isLt
    rw [hostRead_of_lt hlt, outputWord_dat_toNat, BitVec.ofNat_toNat, BitVec.setWidth_eq]
  | eor f => cases f <;> rfl

/-! ### Both ports -/

/-- Every row is the row of a command token or of an output token (R80). -/
theorem exists_row_eq (i : Instr) : (∃ t : CmdTok, i = cmdRow t) ∨ ∃ u : OutTok, i = outRow u := by
  cases i with
  | smp x => exact .inl ⟨.smp x, rfl⟩
  | endRun => exact .inl ⟨.endRun, rfl⟩
  | dat b => exact .inr ⟨.dat b, rfl⟩
  | eor f => exact .inr ⟨.eor f, rfl⟩

/-- The canonical word of a row decodes to the row (R74 to R79). -/
@[simp] theorem decode_encode (i : Instr) : decode (encode i) = .ok i := by
  rcases exists_row_eq i with ⟨t, rfl⟩ | ⟨u, rfl⟩
  · rw [encode_cmdRow, decode, decodeCommand_commandWord]
  · rw [encode_outRow, decode, decodeOutput_outputWord]

end Sys2Proof

namespace Sys2Proof.Machine

/-- What the block shows on `co_data` is the word of a token (20_memory.md R60). -/
theorem State.exists_token_of_coData {s : State} {w : OutputWord} (h : s.coData = some w) :
    ∃ u : OutTok, w = outputWord u := by
  obtain ⟨u, -, hword⟩ := Option.map_eq_some_iff.1 h
  exact ⟨u, hword.symm⟩

/-! ### Decimal numerals -/

/-- The digits of a number are read as the number (R84). -/
theorem readDecimal_toDigits (n : Nat) : readDecimal (Nat.toDigits 10 n) = some n := by
  have hdigits : (Nat.toDigits 10 n).all Char.isDigit = true :=
    List.all_eq_true.2 fun c hc => Nat.isDigit_of_mem_toDigits (by decide) (by decide) hc
  simp [readDecimal, hdigits, Nat.toDigits_ne_nil, Nat.ofDigitChars_ten_toDigits]

/-- What does not begin with a minus sign is read as a numeral without a sign (R84). -/
theorem readInt_of_readDecimal {cs : List Char} {n : Nat} (hhead : cs.head? ≠ some '-')
    (hread : readDecimal cs = some n) : readInt cs = some (n : Int) := by
  unfold readInt
  split
  · exact absurd rfl hhead
  · rw [hread]
    rfl

/-- A written integer is made of digits and the minus sign. -/
theorem eq_or_isDigit_of_mem_writeInt {n : Int} {c : Char} (h : c ∈ writeInt n) : c = '-' ∨ c.isDigit = true := by
  have hdigit : c ∈ Nat.toDigits 10 n.natAbs → c.isDigit = true :=
    Nat.isDigit_of_mem_toDigits (by decide) (by decide)
  unfold writeInt at h
  split at h
  · exact (List.mem_cons.1 h).imp_right hdigit
  · exact .inr (hdigit h)

/-- Any other character does not stand in a written integer. -/
theorem notMem_writeInt {c : Char} (h : c ≠ '-' ∧ c.isDigit = false) (n : Int) : c ∉ writeInt n := fun hmem => by
  rcases eq_or_isDigit_of_mem_writeInt hmem with hminus | hdigit
  · exact h.1 hminus
  · exact absurd (h.2.symm.trans hdigit) (by decide)

theorem writeInt_ne_nil (n : Int) : writeInt n ≠ [] := by
  unfold writeInt
  split
  · exact List.cons_ne_nil _ _
  · exact Nat.toDigits_ne_nil

/-- A written integer is read back (R84). -/
theorem readInt_writeInt (n : Int) : readInt (writeInt n) = some n := by
  unfold writeInt
  split
  · rw [readInt, readDecimal_toDigits]
    exact congrArg some (show -(n.natAbs : Int) = n by omega)
  · have hhead : (Nat.toDigits 10 n.natAbs).head? ≠ some '-' := fun hminus =>
      absurd (Nat.isDigit_of_mem_toDigits (by decide) (by decide) (List.mem_of_head? hminus)) (by decide)
    rw [readInt_of_readDecimal hhead (readDecimal_toDigits _)]
    exact congrArg some (by omega)

/-- An operand without an `x` is decimal, and reads as the word of its value (R84). -/
theorem readSample_of_readInt {cs : List Char} {n : Int} (hx : 'x' ∉ cs) (hread : readInt cs = some n)
    (hrange : -32768 ≤ n ∧ n ≤ 32767) : readSample cs = some (u16 n) := by
  unfold readSample
  split
  · simp at hx
  · simp [hread, hrange]

/-- A written sample is read back (R84). -/
theorem readSample_writeInt (x : Sample) : readSample (writeInt (s16 x)) = some x := by
  rw [readSample_of_readInt (notMem_writeInt (by decide) _) (readInt_writeInt _) (s16_range x), u16_s16]

/-! ### Lines and listings -/

/-- A line without a `;` has no comment (R84). -/
theorem stripComment_of_notMem {line : List Char} (h : ';' ∉ line) : stripComment line = line := by
  rw [stripComment, List.takeWhile_eq_self_iff]
  intro c hc
  exact bne_iff_ne.2 fun heq => h (heq ▸ hc)

/-- Characters that are no blanks go on with the word being read. -/
theorem splitWords_append {w : List Char} (h : ∀ c ∈ w, isBlank c = false) (cur rest : List Char) :
    splitWords cur (w ++ rest) = splitWords (w.reverse ++ cur) rest := by
  induction w generalizing cur with
  | nil => rfl
  | cons c w ih =>
    obtain ⟨hc, hw⟩ := List.forall_mem_cons.1 h
    rw [List.cons_append, splitWords, if_neg (by simp [hc]), ih hw]
    simp

/-- The last word of a line ends with the line. -/
theorem splitWords_single {w : List Char} (hne : w ≠ []) (h : ∀ c ∈ w, isBlank c = false) :
    splitWords [] w = [w] := by
  simpa [splitWords, hne] using splitWords_append h [] []

/-- A word before a blank is the first word of the line. -/
theorem splitWords_cons {w : List Char} (hne : w ≠ []) (h : ∀ c ∈ w, isBlank c = false) {b : Char}
    (hb : isBlank b = true) (rest : List Char) : splitWords [] (w ++ b :: rest) = w :: splitWords [] rest := by
  rw [splitWords_append h]
  simp [splitWords, hne, hb]

theorem isBlank_of_mem_writeInt (n : Int) : ∀ c ∈ writeInt n, isBlank c = false := by
  intro c hc
  have hne : ∀ b : Char, b ≠ '-' ∧ b.isDigit = false → c ≠ b := fun b hb heq =>
    notMem_writeInt hb n (heq ▸ hc)
  simp [isBlank, hne ' ' (by decide), hne '\t' (by decide), hne '\r' (by decide)]

/-- A written `SMP` line is its mnemonic and its operand (R84). -/
theorem splitWords_writeCommand_smp (x : Sample) :
    splitWords [] (stripComment (writeCommand (.smp x))) = [['S', 'M', 'P'], writeInt (s16 x)] := by
  have hcomment : ';' ∉ writeCommand (.smp x) := by simp [writeCommand, notMem_writeInt]
  rw [stripComment_of_notMem hcomment]
  calc splitWords [] (['S', 'M', 'P'] ++ ' ' :: writeInt (s16 x))
      = ['S', 'M', 'P'] :: splitWords [] (writeInt (s16 x)) :=
        splitWords_cons (by decide) (by simp [isBlank]) rfl _
    _ = [['S', 'M', 'P'], writeInt (s16 x)] := by
        rw [splitWords_single (writeInt_ne_nil _) (isBlank_of_mem_writeInt _)]

/-- A written command is read back (R84). -/
theorem readLine_writeCommand (t : CmdTok) : readLine (writeCommand t) = .ok (.command t) := by
  cases t with
  | smp x => simp [readLine, splitWords_writeCommand_smp, readSample_writeInt]
  | endRun => rfl

/-- A listing of written commands assembles to their words, at the top of a listing and below it (R84). -/
theorem assembleFrom_writeCommand (top : Bool) (ts : List CmdTok) :
    assembleFrom top (ts.map writeCommand) = .ok (ts.map commandWord) := by
  induction ts generalizing top with
  | nil => rfl
  | cons t ts ih => simp [assembleFrom, readLine_writeCommand, ih]

end Sys2Proof.Machine

namespace Sys2Proof

open Sys2Proof.Machine

/-- Settles O2: a word of either port that decodes is the canonical word of its row, or an END word. -/
theorem decodeAndEncodeAgree : Obligations.DecodeAndEncodeAgree := by
  refine ⟨decode_encode, fun w i hdecode => ?_⟩
  cases w with
  | cw c =>
    cases hdecode
    exact (encode_decodeCommand c).imp_right fun ⟨hend, hbit⟩ => ⟨hend, c, rfl, hbit⟩
  | ow o =>
    obtain ⟨u, rfl, rfl⟩ := exists_outputWord_of_decodeOutput hdecode
    exact .inl (encode_outRow u)

/-- Settles O3: each range of words by its decoding equation, and the block shows only words of tokens. -/
theorem opcodeMapsOfBothPorts : Obligations.OpcodeMapsOfBothPorts := by
  refine ⟨fun w => ⟨fun h => ?_, fun h => ?_⟩, fun w => ⟨decodeOutput_of_lt ∘ Nat.lt_succ_of_le, fun h => ?_,
    fun h => ?_, decodeOutput_of_ge⟩, fun s w hshown => ?_⟩
  · exact congrArg Except.ok (decodeCommand_of_lt (Nat.lt_succ_of_le h))
  · exact congrArg Except.ok (decodeCommand_of_le h)
  · obtain rfl : w = outputWord (.eor false) := BitVec.eq_of_toNat_eq h
    exact decodeOutput_outputWord _
  · obtain rfl : w = outputWord (.eor true) := BitVec.eq_of_toNat_eq h
    exact decodeOutput_outputWord _
  · obtain ⟨u, rfl⟩ := s.exists_token_of_coData hshown
    exact outputWord_toNat_le u

/-- Settles O6: by line, then by induction on the listing. -/
theorem assemblerReadsWrittenCommands : Obligations.AssemblerReadsWrittenCommands :=
  ⟨readLine_writeCommand, assembleFrom_writeCommand true⟩

/-- Settles O1: the decoder is run on each of the ten words. -/
theorem tableWordsDecodeToTheirRows : Obligations.TableWordsDecodeToTheirRows := by
  unfold Obligations.TableWordsDecodeToTheirRows
  decide

/-- Settles O5: a word that decodes is the word of a token, which both read. -/
theorem hostReadsWhatTheBlockShows : Obligations.HostReadsWhatTheBlockShows := by
  refine ⟨hostRead_outputWord, fun w i hdecode => ?_⟩
  obtain ⟨u, rfl, rfl⟩ := exists_outputWord_of_decodeOutput hdecode
  rw [hostRead_outputWord]

end Sys2Proof
end

section
/-! PROOFS. The statements of 40_upsampler.md: interpolation (R101 to R108), the five steps of the UPS agent (R110 to
R114) and what they compute on a run (R115). A schedule is followed through the state it leaves: `runSchedule (es ++ es')`
from one state is `runSchedule es'` from the state after `es`. In these rewrites a premise is given as `by exact`, so that
it is checked once the rewrite has found the state it speaks of. -/

namespace Sys2Proof.Machine

variable {e : Event} {s t : State} {F : Nat}

/-! ### Interpolated values -/

/-- The interpolated value with the weights written as rationals (40_upsampler.md R102, R112). -/
theorem interpValue_eq (F : Nat) (a b : Sample) (j : Nat) :
    interpValue F a b j = (((F : ℚ) - j) * s16 a + j * s16 b) / F := by
  simp [interpValue, interpNumerator]

/-- R102: the left endpoint and the part `j / F` of the way to the right one. -/
theorem interpValue_eq_add (hF : 1 ≤ F) (a b : Sample) (j : Nat) :
    interpValue F a b j = (s16 a : ℚ) + ((s16 b : ℚ) - s16 a) * j / F := by
  have hpos : (0 : ℚ) < F := by positivity
  rw [interpValue_eq]
  field_simp
  ring

/-- R104, R113: a span with equal endpoints holds their value. -/
theorem interpValue_self (hF : 1 ≤ F) (a : Sample) (j : Nat) : interpValue F a a j = s16 a := by
  simp [interpValue_eq_add hF]

/-- R108: a value is a weighted mean of the endpoints of its span, so it lies between them. -/
theorem interpValue_mem_uIcc (hF : 1 ≤ F) (a b : Sample) {j : Nat} (hj : j ≤ F) :
    interpValue F a b j ∈ Set.uIcc (s16 a : ℚ) (s16 b) := by
  have hpos : (0 : ℚ) < F := by positivity
  have hweight : (0 : ℚ) ≤ F - j := sub_nonneg.2 (by exact_mod_cast hj)
  have hmean : ((F : ℚ) - j) / F * s16 a + j / F * s16 b ∈ Set.uIcc (s16 a : ℚ) (s16 b) :=
    convex_uIcc (𝕜 := ℚ) _ _ Set.left_mem_uIcc Set.right_mem_uIcc (by positivity) (by positivity) (by field_simp; ring)
  rw [interpValue_eq]
  convert hmean using 1
  ring

/-! ### Spans and tail -/

@[simp] theorem length_spanValues (F : Nat) (a b : Sample) : (spanValues F a b).length = F := by simp [spanValues]

theorem spanValues_getElem? {j : Nat} (hj : j < F) (a b : Sample) :
    (spanValues F a b)[j]? = some (interpValue F a b j) := by
  simp [spanValues, hj]

/-- R104: the tail is the span from the last sample to itself. -/
theorem spanValues_self (hF : 1 ≤ F) (a : Sample) : spanValues F a a = List.replicate F (s16 a : ℚ) := by
  simp [spanValues, List.eq_replicate_iff, interpValue_self hF]

/-- The values of the first span (R101). -/
theorem interpolate_getElem?_of_lt {j : Nat} (hj : j < F) (x y : Sample) (rest : List Sample) :
    (interpolate F (x :: y :: rest))[j]? = some (interpValue F x y j) := by
  rw [interpolate, List.getElem?_append_left (by simpa using hj), spanValues_getElem? hj]

/-- Past the first span stand the values of the samples from the second on (R106). -/
theorem interpolate_getElem?_add (F : Nat) (x y : Sample) (rest : List Sample) (k : Nat) :
    (interpolate F (x :: y :: rest))[F + k]? = (interpolate F (y :: rest))[k]? := by
  rw [interpolate, List.getElem?_append_right (by simp)]
  simp

/-- R105: `F` values for every sample. -/
@[simp] theorem length_interpolate (F : Nat) (xs : List Sample) : (interpolate F xs).length = xs.length * F := by
  induction xs using interpolate.induct with
  | case1 => simp [interpolate]
  | case2 x => simp [interpolate]
  | case3 x y rest ih =>
    rw [interpolate, List.length_append, length_spanValues, ih]
    simp only [List.length_cons]
    ring

/-- R101, R106: the span of samples `i` and `i + 1` starts at index `i * F`. -/
theorem interpolate_getElem?_span {j : Nat} (hj : j < F) {xs : List Sample} {i : Nat} {a b : Sample}
    (ha : xs[i]? = some a) (hb : xs[i + 1]? = some b) :
    (interpolate F xs)[i * F + j]? = some (interpValue F a b j) := by
  induction xs using interpolate.induct generalizing i with
  | case1 => simp at ha
  | case2 x => simp at hb
  | case3 x y rest ih =>
    cases i with
    | zero =>
      obtain rfl : x = a := by simpa using ha
      obtain rfl : y = b := by simpa using hb
      rw [Nat.zero_mul, Nat.zero_add, interpolate_getElem?_of_lt hj]
    | succ i =>
      rw [show (i + 1) * F + j = F + (i * F + j) by ring, interpolate_getElem?_add]
      exact ih ha hb

/-- R104, R106: the last `F` values are the last sample. -/
theorem interpolate_getElem?_tail {j : Nat} (hj : j < F) {xs : List Sample} {a : Sample} (ha : xs.getLast? = some a) :
    (interpolate F xs)[(xs.length - 1) * F + j]? = some (s16 a : ℚ) := by
  induction xs using interpolate.induct with
  | case1 => simp at ha
  | case2 x =>
    obtain rfl : x = a := by simpa using ha
    simp [interpolate, hj]
  | case3 x y rest ih =>
    have hindex : ((x :: y :: rest).length - 1) * F + j = F + (((y :: rest).length - 1) * F + j) := by
      simp only [List.length_cons, Nat.add_sub_cancel]
      ring
    rw [hindex, interpolate_getElem?_add]
    exact ih (by simpa using ha)

/-! ### One step of the Upsampler -/

/-- R112: a value before the last of its span. -/
theorem effect_upsEmit_of_lt (hact : s.act = true) (hroom : room s.cfg.capCU s.cu = true) (hph : s.ph + 1 < s.cfg.F) :
    Effect .upsEmit s { s with cu := s.cu ++ [.val (interpValue s.cfg.F s.xl s.xr s.ph)], ph := s.ph + 1 } := by
  have h := Effect.upsEmit hact hroom
  rwa [nextPhase, if_pos hph] at h

/-- R112: the last value of a span. -/
theorem effect_upsEmit_of_not_lt (hact : s.act = true) (hroom : room s.cfg.capCU s.cu = true)
    (hph : ¬ s.ph + 1 < s.cfg.F) :
    Effect .upsEmit s { s with
      cu := s.cu ++ [.val (interpValue s.cfg.F s.xl s.xr s.ph)], ph := 0, act := false, xl := s.xr } := by
  have h := Effect.upsEmit hact hroom
  rwa [nextPhase, if_neg hph] at h

/-- No guard looks at what the choice of the event uses up. -/
@[simp] theorem enabled_advance (e : Event) (s : State) : enabled e (advance s) = enabled e s := by
  unfold advance
  split <;> cases e <;> rfl

/-- The machine's step is the effect of the event that is next. -/
theorem step_of_effect (hnext : nextEvent s = e) (h : Effect e (advance s) t) : step s = .next t := by
  rw [step_eq, hnext, h.perform_eq]

/-- R209: where the guard of the next event fails, its agent waits. -/
theorem step_of_not_enabled (hnext : nextEvent s = e) (h : enabled e s = false) : step s = .next (advance s) := by
  rw [step_eq, hnext]
  refine (perform_waits_or_moves e (advance s)).resolve_right fun ⟨t, hmove⟩ => ?_
  simpa [h] using hmove.enabled

theorem sampleWaits_eq_false (h : ∀ x rest, s.ci ≠ .smp x :: rest) : sampleWaits s = false :=
  Bool.eq_false_iff.2 fun hwaits => by
    obtain ⟨x, rest, hci⟩ := sampleWaits_iff.1 hwaits
    exact h x rest hci

/-- R111: while a span is emitted no UPS step takes a command. -/
theorem Moves.ci_eq_of_act (h : Moves e s t) (he : e ∈ upsSteps) (hact : s.act = true) : t.ci = s.ci := by
  cases h with
  | put | take | reset => simp [upsSteps] at he
  | internal heff =>
    cases heff with
    | upsEmit => exact nextPhase_ci s
    | upsFirst hidle | upsNext hidle | upsFwd hidle => simp [hidle] at hact
    | _ => rfl

/-! ### The steps of a run -/

theorem runSchedule_nil (s : State) : runSchedule [] s = .next { s with sched := [] } := rfl

/-- A schedule runs its first event and goes on from the state it leaves. -/
theorem Effect.runSchedule_cons {es : List Event} (h : Effect e s t) : runSchedule (e :: es) s = runSchedule es t :=
  Machine.runSchedule_cons (by rintro rfl; cases h) h.perform_eq

section Schedules

variable {es : List Event} {rest : List CmdTok}

/-- R101, R112: the UPS.EMIT steps that are left of a span push its values from the present phase on, and end it. -/
theorem runSchedule_emits {n : Nat} (hact : s.act = true) (hcap : s.cfg.capCU = none)
    (hn : s.ph + (n + 1) = s.cfg.F) :
    runSchedule (List.replicate (n + 1) .upsEmit ++ es) s = runSchedule es { s with
      cu := s.cu ++ ((List.range' s.ph (n + 1)).map (interpValue s.cfg.F s.xl s.xr)).map .val
      ph := 0, act := false, xl := s.xr } := by
  induction n generalizing s with
  | zero => exact (effect_upsEmit_of_not_lt hact (by simp [hcap]) (by omega)).runSchedule_cons
  | succ n ih =>
    rw [List.replicate_succ, List.cons_append,
      (effect_upsEmit_of_lt hact (by simp [hcap]) (by omega)).runSchedule_cons,
      ih (by exact hact) (by exact hcap) (by simp only; omega)]
    simp [List.range'_succ]

/-- R101: from phase 0 the `F` UPS.EMIT steps push the span. -/
theorem runSchedule_span (hF : s.cfg.F = F) (hact : s.act = true) (hcap : s.cfg.capCU = none) (hph : s.ph = 0) :
    runSchedule (List.replicate F .upsEmit ++ es) s = runSchedule es { s with
      cu := s.cu ++ (spanValues F s.xl s.xr).map .val, ph := 0, act := false, xl := s.xr } := by
  subst hF
  obtain ⟨n, hn⟩ := Nat.exists_eq_add_of_le' s.cfg.ok.1
  have hemits := runSchedule_emits (es := es) (n := n) hact hcap (by omega)
  rwa [hph, ← hn, ← List.range_eq_range'] at hemits

/-- R111, R101: UPS.NEXT and its span. -/
theorem runSchedule_next {y : Sample} (hF : s.cfg.F = F) (hact : s.act = false) (hvl : s.vl = true)
    (hcap : s.cfg.capCU = none) (hci : s.ci = .smp y :: rest) :
    runSchedule (.upsNext :: List.replicate F .upsEmit ++ es) s = runSchedule es { s with
      ci := rest, cu := s.cu ++ (spanValues F s.xl y).map .val, xl := y, xr := y, ph := 0, act := false } := by
  rw [List.cons_append, (Effect.upsNext hact hvl hci).runSchedule_cons,
    runSchedule_span (by exact hF) rfl (by exact hcap) rfl]

/-- R113, R104: UPS.TAIL and the held sample. -/
theorem runSchedule_tail (hF : s.cfg.F = F) (hact : s.act = false) (hvl : s.vl = true) (hcap : s.cfg.capCU = none)
    (hci : s.ci = .endRun :: rest) :
    runSchedule (.upsTail :: List.replicate F .upsEmit ++ es) s = runSchedule es { s with
      cu := s.cu ++ (interpolate F [s.xl]).map .val, xr := s.xl, vl := false, ph := 0, act := false } := by
  rw [List.cons_append, (Effect.upsTail hact hvl hci).runSchedule_cons,
    runSchedule_span (by exact hF) rfl (by exact hcap) rfl, spanValues_self (hF ▸ s.cfg.ok.1), interpolate]

/-- R106: with the first sample in `XL`, the spans to the later samples and the tail push `interpolate`. -/
theorem runSchedule_spans_tail {ys : List Sample} (hF : s.cfg.F = F) (hact : s.act = false) (hvl : s.vl = true)
    (hcap : s.cfg.capCU = none) (hci : s.ci = ys.map .smp ++ .endRun :: rest) :
    runSchedule ((List.replicate ys.length (.upsNext :: List.replicate F .upsEmit)).flatten ++
        (.upsTail :: List.replicate F .upsEmit ++ es)) s = runSchedule es { s with
      ci := .endRun :: rest
      cu := s.cu ++ (interpolate F (s.xl :: ys)).map .val
      xl := ys.getLast?.getD s.xl
      xr := ys.getLast?.getD s.xl
      vl := false, ph := 0, act := false } := by
  induction ys generalizing s with
  | nil =>
    have hci : s.ci = .endRun :: rest := hci
    simpa [← hci] using runSchedule_tail hF hact hvl hcap hci
  | cons y ys ih =>
    rw [List.length_cons, List.replicate_succ, List.flatten_cons, List.append_assoc,
      runSchedule_next hF hact hvl hcap hci, ih (by exact hF) rfl (by exact hvl) (by exact hcap) rfl]
    simp [interpolate, List.getLast?_cons]

end Schedules

end Sys2Proof.Machine

namespace Sys2Proof

open Sys2Proof.Machine

/-- Settles O44: R102's form, which is the left endpoint at phase 0, and the weighted mean of R108. -/
theorem interpolationIsExact : Obligations.InterpolationIsExact := by
  intro F j a b hF hj
  have hphase0 : interpValue F a b 0 = s16 a := by simp [interpValue_eq_add hF]
  obtain ⟨hlo, hhi⟩ := interpValue_mem_uIcc hF a b hj.le
  exact ⟨interpValue_eq_add hF a b j, hphase0, hlo, hhi⟩

/-- Settles O45, by the recursion of `interpolate`. -/
theorem interpolateIsSpansThenTail : Obligations.InterpolateIsSpansThenTail := fun F xs _ =>
  ⟨length_interpolate F xs, fun _ _ _ _ hj ha hb => interpolate_getElem?_span hj ha hb,
    fun _ _ hj ha => interpolate_getElem?_tail hj ha⟩

/-- Settles O54: a run of no samples is UPS.FWD alone; otherwise UPS.FIRST, the spans and the tail, UPS.FWD. -/
theorem upsamplerComputesInterpolate : Obligations.UpsamplerComputesInterpolate := by
  intro s xs rest hvl hact hph hcap hci
  cases xs with
  | nil =>
    have hfwd : Effect .upsFwd s _ := .upsFwd hact hvl hci (by simp [hcap])
    rw [List.length_nil, upsSchedule, hfwd.runSchedule_cons, runSchedule_nil]
    simp [interpolate]
  | cons x xs =>
    have hfirst : Effect .upsFirst s _ := .upsFirst hact hvl hci
    simp only [List.length_cons, upsSchedule, List.cons_append, List.append_assoc]
    rw [hfirst.runSchedule_cons, ← List.cons_append,
      runSchedule_spans_tail (by rfl) (by exact hact) rfl (by exact hcap) rfl,
      (Effect.upsFwd rfl rfl rfl (by simp [hcap])).runSchedule_cons, runSchedule_nil]
    simp [hvl, hact, hph, List.getLast?_cons]

/-- Settles O19: the effect where the guard holds, and each way in which it fails. -/
theorem upsFirstTakesTheFirstSample : Obligations.UpsFirstTakesTheFirstSample := by
  intro s hnext
  refine ⟨fun x rest hact hci hvl => ?_, fun hguard => ?_⟩
  · exact step_of_effect hnext
      (.upsFirst ((advance_act s).trans hact) ((advance_vl s).trans hvl) ((advance_ci s).trans hci))
  · apply step_of_not_enabled hnext
    rcases hguard with hact | hci | hvl
    · simp [enabled, hact]
    · simp [enabled, sampleWaits_eq_false hci]
    · simp [enabled, hvl]

/-- Settles O20: the guard and the effect, and of the UPS steps only UPS.EMIT has `ACT = 1` in its guard. -/
theorem upsNextOpensASpan : Obligations.UpsNextOpensASpan := by
  refine ⟨fun s hnext => ⟨fun x rest hact hci hvl => ?_, fun hguard => ?_⟩, fun s t hups hact hstep => ?_⟩
  · exact step_of_effect hnext
      (.upsNext ((advance_act s).trans hact) ((advance_vl s).trans hvl) ((advance_ci s).trans hci))
  · apply step_of_not_enabled hnext
    rcases hguard with hact | hci | hvl
    · simp [enabled, hact]
    · simp [enabled, sampleWaits_eq_false hci]
    · simp [enabled, hvl]
  · rw [← advance_ci s]
    rcases eq_or_moves_of_perform hstep with rfl | hmove
    · rfl
    · exact hmove.ci_eq_of_act hups (by simpa using hact)

/-- Settles O21: the effect by the two branches of the phase, and the numerator by the range of the samples. -/
theorem upsEmitPushesTheInterpolatedValue : Obligations.UpsEmitPushesTheInterpolatedValue := by
  intro s hnext
  refine ⟨fun hact hroom => ?_, fun hguard => ?_, fun hph => ?_⟩
  · have hact := (advance_act s).trans hact
    have hroom : room (advance s).cfg.capCU (advance s).cu = true := by simpa using hroom
    simp only [← interpValue_eq]
    split_ifs with hph
    · simpa using step_of_effect hnext (effect_upsEmit_of_lt hact hroom (by simpa using hph))
    · simpa using step_of_effect hnext (effect_upsEmit_of_not_lt hact hroom (by simpa using hph))
  · apply step_of_not_enabled hnext
    rcases hguard with hact | hroom
    · simp [enabled, hact]
    · simp [enabled, hroom]
  · obtain ⟨hlo, hhi⟩ := interpNumerator_range s.xl s.xr hph.le
    unfold interpNumerator at hlo hhi
    exact abs_le.2 ⟨by omega, by omega⟩

/-- Settles O22: the effect reads `XL` before the step; the guard fails in three ways. -/
theorem upsTailHoldsTheLastSample : Obligations.UpsTailHoldsTheLastSample := by
  intro s hnext
  refine ⟨fun rest hact hci hvl => ?_, fun hguard => ?_⟩
  · have heff : Effect .upsTail (advance s) _ :=
      .upsTail ((advance_act s).trans hact) ((advance_vl s).trans hvl) ((advance_ci s).trans hci)
    simpa using step_of_effect hnext heff
  · apply step_of_not_enabled hnext
    rcases hguard with hact | hci | hvl
    · simp [enabled, hact]
    · simp [enabled, List.head?_eq_some_iff, hci]
    · simp [enabled, hvl]

/-- Settles O23: the effect, and the guard with the room of `CU` in it. -/
theorem upsFwdPassesTheEndOn : Obligations.UpsFwdPassesTheEndOn := by
  intro s hnext
  refine ⟨fun rest hact hci hvl hroom => ?_, fun hguard => ?_⟩
  · have heff : Effect .upsFwd (advance s) _ :=
      .upsFwd ((advance_act s).trans hact) ((advance_vl s).trans hvl) ((advance_ci s).trans hci) (by simpa using hroom)
    simpa using step_of_effect hnext heff
  · apply step_of_not_enabled hnext
    rcases hguard with hact | hci | hvl | hroom
    · simp [enabled, hact]
    · simp [enabled, List.head?_eq_some_iff, hci]
    · simp [enabled, hvl]
    · simp [enabled, hroom]

end Sys2Proof
end

section
/-! PROOFS. The statements of 41_quantizer.md: one quantizer step (R134 to R142), the fold over a run (R143, R148), the
no-overload invariant (R141), the two steps of the QNT agent (R144, R145) and what they compute on a run (R146). The
code is the floored sum modulo `2^W`; the residual is the fraction of the sum plus what the modulus removed. -/

namespace Sys2Proof.Machine

variable {F W : Nat} {e s a : ℚ}

/-! ### Constants as rationals -/

theorem mask_cast (W : Nat) : (mask W : ℚ) = 2 ^ W - 1 :=
  eq_sub_of_add_eq (by exact_mod_cast mask_add_one W)

theorem two_mul_half_cast (hW : 1 ≤ W) : 2 * (half W : ℚ) = 2 ^ W := by
  exact_mod_cast two_mul_half hW

/-! ### One step -/

/-- R134: the floored sum is the integer in `(v + HALF - 1, v + HALF]`. -/
theorem floored_bounds (W : Nat) (v : ℚ) : (floored W v : ℚ) ≤ v + half W ∧ v + half W < floored W v + 1 :=
  ⟨Int.floor_le _, Int.lt_floor_add_one _⟩

/-- The sum is its floored part and its fraction. -/
theorem floored_add_fract (W : Nat) (v : ℚ) : (floored W v : ℚ) + Int.fract (v + half W) = v + half W :=
  Int.floor_add_fract _

/-- R134: the code is the floored sum modulo `2^W`. -/
theorem qstep_fst (W : Nat) (e s : ℚ) : ((qstep W e s).1 : Int) = floored W (s + e) % 2 ^ W := by
  exact_mod_cast wrapCode_cast W (floored W (s + e))

/-- R142: a wrap removes a multiple of `2^W` from the code. -/
theorem qstep_fst_eq_sub (W : Nat) (e s : ℚ) :
    ((qstep W e s).1 : Int) = floored W (s + e) - 2 ^ W * (floored W (s + e) / 2 ^ W) := by
  rw [qstep_fst, Int.emod_def]

/-- R142: what the wrap removes from the code stays in the error. -/
theorem qstep_snd_eq_fract_add (W : Nat) (e s : ℚ) : (qstep W e s).2 =
    Int.fract (s + e + half W) + 2 ^ W * ((floored W (s + e) / 2 ^ W : Int) : ℚ) := by
  have hcode : ((qstep W e s).1 : ℚ) =
      floored W (s + e) - 2 ^ W * ((floored W (s + e) / 2 ^ W : Int) : ℚ) := by
    exact_mod_cast qstep_fst_eq_sub W e s
  rw [qstep_snd, hcode]
  linear_combination -floored_add_fract W (s + e)

/-- R141: where the floored sum is a code there is no wrap. -/
theorem qstep_of_floored_le_mask (hlo : 0 ≤ floored W (s + e)) (hhi : floored W (s + e) ≤ mask W) :
    ((qstep W e s).1 : Int) = floored W (s + e) ∧ (qstep W e s).2 = Int.fract (s + e + half W) := by
  have hmask : (mask W : Int) + 1 = 2 ^ W := by exact_mod_cast mask_add_one W
  have hzero : floored W (s + e) / 2 ^ W = 0 := Int.ediv_eq_zero_of_lt hlo (by omega)
  rw [qstep_fst_eq_sub, qstep_snd_eq_fract_add, hzero]
  simp

/-- R141: a fractional error and a value in the no-wrap range have a floored sum that is a code. -/
theorem NoWrap.floored_mem (hs : NoWrap W s) (hW : 1 ≤ W) (he0 : 0 ≤ e) (he1 : e < 1) :
    0 ≤ floored W (s + e) ∧ floored W (s + e) ≤ mask W := by
  obtain ⟨hlo, hhi⟩ := hs
  refine ⟨Int.floor_nonneg.2 (by linarith), Int.lt_add_one_iff.1 (Int.floor_lt.2 ?_)⟩
  push_cast
  linarith [mask_cast W, two_mul_half_cast hW]

/-- R141: a fractional error stays one. -/
theorem NoWrap.qstep_snd_fraction (hs : NoWrap W s) (hW : 1 ≤ W) (he0 : 0 ≤ e) (he1 : e < 1) :
    0 ≤ (qstep W e s).2 ∧ (qstep W e s).2 < 1 := by
  obtain ⟨hlo, hhi⟩ := hs.floored_mem hW he0 he1
  rw [(qstep_of_floored_le_mask hlo hhi).2]
  exact ⟨Int.fract_nonneg _, Int.fract_lt_one _⟩

/-- R143: a multiple of `2^W` in the error passes through a step and leaves the code alone. -/
theorem qstep_add_multiple (W : Nat) (m : Int) (e s : ℚ) :
    qstep W (e + 2 ^ W * m) s = ((qstep W e s).1, (qstep W e s).2 + 2 ^ W * m) := by
  have hfloored : floored W (s + (e + 2 ^ W * m)) = floored W (s + e) + 2 ^ W * m := by
    rw [floored, floored, ← Int.floor_add_intCast]
    push_cast
    congr 1
    ring
  have hcode : (qstep W (e + 2 ^ W * m) s).1 = (qstep W e s).1 := by
    rw [← Int.natCast_inj, qstep_fst, qstep_fst, hfloored, Int.add_mul_emod_self_left]
  refine Prod.ext hcode ?_
  rw [qstep_snd, qstep_snd, hcode]
  ring

/-! ### The step on integers (R140) -/

/-- `T` of R140: the sum `v + HALF` over the common denominator. -/
def sumNumerator (F W : Nat) (E U : Int) : Int := (mask W : Int) * U + E + (half W : Int) * denom F

theorem qstepInt_fst (F W : Nat) (E U : Int) :
    (qstepInt F W E U).1 = wrapCode W (sumNumerator F W E U / denom F) := rfl

theorem qstepInt_snd (F W : Nat) (E U : Int) :
    (qstepInt F W E U).2 = sumNumerator F W E U - (qstepInt F W E U).1 * denom F := rfl

theorem sum_eq_sumNumerator_div (hF : 1 ≤ F) (W : Nat) (E U : Int) :
    scaleValue W ((U : ℚ) / F) + (E : ℚ) / denom F + half W = (sumNumerator F W E U : ℚ) / denom F := by
  have hpos : (0 : ℚ) < F := by positivity
  simp only [scaleValue, gain, denom, sumNumerator]
  push_cast
  field_simp

/-- R140: the code of the integer step is the code of the rational step. -/
theorem qstep_fst_eq_qstepInt (hF : 1 ≤ F) (W : Nat) (E U : Int) :
    (qstep W ((E : ℚ) / denom F) (scaleValue W ((U : ℚ) / F))).1 = (qstepInt F W E U).1 := by
  have hfloored : floored W (scaleValue W ((U : ℚ) / F) + (E : ℚ) / denom F) = sumNumerator F W E U / denom F := by
    rw [floored, sum_eq_sumNumerator_div hF]
    exact_mod_cast Rat.floor_intCast_div_natCast _ _
  rw [qstepInt_fst, ← hfloored]
  rfl

/-- R140: the error of the integer step is the error of the rational step over the common denominator. -/
theorem qstep_snd_eq_qstepInt (hF : 1 ≤ F) (W : Nat) (E U : Int) :
    (qstep W ((E : ℚ) / denom F) (scaleValue W ((U : ℚ) / F))).2 = ((qstepInt F W E U).2 : ℚ) / denom F := by
  have hpos : (denom F : ℚ) ≠ 0 := by
    rw [denom]
    positivity
  rw [qstep_snd, qstep_fst_eq_qstepInt hF, sum_eq_sumNumerator_div hF, qstepInt_snd]
  push_cast
  field_simp

/-- R140: without a wrap the integer step is a division with remainder. -/
theorem qstepInt_snd_of_noWrap {E U : Int} (hlo : 0 ≤ sumNumerator F W E U / denom F)
    (hhi : sumNumerator F W E U / denom F ≤ mask W) :
    (qstepInt F W E U).2 = sumNumerator F W E U % denom F := by
  have hmask := mask_add_one W
  rw [qstepInt_snd, qstepInt_fst, wrapCode_cast, Int.emod_eq_of_lt hlo (by omega), Int.emod_def, mul_comm]

/-! ### The fold over a run (R137) -/

@[simp] theorem quantizeFrom_nil (W : Nat) (e : ℚ) : quantizeFrom W e [] = ([], e) := rfl

@[simp] theorem quantizeFrom_cons (W : Nat) (e s : ℚ) (ss : List ℚ) : quantizeFrom W e (s :: ss) =
    ((qstep W e s).1 :: (quantizeFrom W (qstep W e s).2 ss).1, (quantizeFrom W (qstep W e s).2 ss).2) := rfl

/-- A run is quantized in parts: the second goes on with the error the first leaves. -/
theorem quantizeFrom_append (W : Nat) (e : ℚ) (ss ts : List ℚ) : quantizeFrom W e (ss ++ ts) =
    ((quantizeFrom W e ss).1 ++ (quantizeFrom W (quantizeFrom W e ss).2 ts).1,
      (quantizeFrom W (quantizeFrom W e ss).2 ts).2) := by
  induction ss generalizing e with
  | nil => rfl
  | cons s ss ih => simp [ih]

/-- R136: one code per value. -/
@[simp] theorem length_quantizeFrom (W : Nat) (e : ℚ) (ss : List ℚ) : (quantizeFrom W e ss).1.length = ss.length := by
  induction ss generalizing e with
  | nil => rfl
  | cons s ss ih => simp [ih]

/-- R136: every code has `W` bits. -/
theorem le_mask_of_mem_quantizeFrom {q : Nat} {ss : List ℚ} (h : q ∈ (quantizeFrom W e ss).1) : q ≤ mask W := by
  induction ss generalizing e with
  | nil => simp at h
  | cons s ss ih =>
    rw [quantizeFrom_cons, List.mem_cons] at h
    rcases h with rfl | h
    · exact wrapCode_le_mask W _
    · exact ih h

/-- R143: a multiple of `2^W` in the error passes through a run and leaves the codes alone. -/
theorem quantizeFrom_add_multiple (W : Nat) (m : Int) (e : ℚ) (ss : List ℚ) :
    quantizeFrom W (e + 2 ^ W * m) ss = ((quantizeFrom W e ss).1, (quantizeFrom W e ss).2 + 2 ^ W * m) := by
  induction ss generalizing e with
  | nil => rfl
  | cons s ss ih => simp [qstep_add_multiple, ih]

/-- R148: the error is what the sum of the values leaves over the sum of the levels. -/
theorem quantizeFrom_snd_eq_sum (W : Nat) (e : ℚ) (ss : List ℚ) : (quantizeFrom W e ss).2 =
    e + ss.sum - ((quantizeFrom W e ss).1.map fun q : Nat => (q : ℚ) - half W).sum := by
  induction ss generalizing e with
  | nil => simp
  | cons s ss ih =>
    simp only [quantizeFrom_cons, List.map_cons, List.sum_cons, ih, qstep_snd]
    ring

/-- The error `e` after the running sum `a` in the closed form of R148: the fraction of `a`, but for wraps. -/
def ErrorOfSum (W : Nat) (e a : ℚ) : Prop := ∃ m : Int, e = Int.fract a + 2 ^ W * m

/-- The sum of a step is the new running sum, but for an integer (R148). -/
theorem sum_of_errorOfSum {m : Int} (h : e = Int.fract a + 2 ^ W * m) (s : ℚ) :
    s + e + half W = a + s + (((half W : Int) - ⌊a⌋ + 2 ^ W * m : Int) : ℚ) := by
  rw [h, Int.fract]
  push_cast
  ring

/-- The next floored sum counts the integers that the running sum passes (R148). -/
theorem floored_of_errorOfSum {m : Int} (h : e = Int.fract a + 2 ^ W * m) (s : ℚ) :
    floored W (s + e) = (half W : Int) + ⌊a + s⌋ - ⌊a⌋ + 2 ^ W * m := by
  rw [floored, sum_of_errorOfSum h, Int.floor_add_intCast]
  ring

/-- R148: the next code in closed form. -/
theorem ErrorOfSum.qstep_fst (h : ErrorOfSum W e a) (s : ℚ) :
    (qstep W e s).1 = (((half W : Int) + ⌊a + s⌋ - ⌊a⌋) % 2 ^ W).toNat := by
  obtain ⟨m, h⟩ := h
  rw [← Int.add_mul_emod_self_left _ (2 ^ W) m, ← floored_of_errorOfSum h, ← Machine.qstep_fst, Int.toNat_natCast]

/-- R148: a step adds its value to the running sum. -/
theorem ErrorOfSum.qstep_snd (h : ErrorOfSum W e a) (s : ℚ) : ErrorOfSum W (qstep W e s).2 (a + s) := by
  obtain ⟨m, h⟩ := h
  exact ⟨floored W (s + e) / 2 ^ W, by rw [qstep_snd_eq_fract_add, sum_of_errorOfSum h, Int.fract_add_intCast]⟩

/-- R148 over a run. -/
theorem ErrorOfSum.quantizeFrom_snd (h : ErrorOfSum W e a) (ss : List ℚ) :
    ErrorOfSum W (quantizeFrom W e ss).2 (a + ss.sum) := by
  induction ss generalizing e a with
  | nil => simpa using h
  | cons s ss ih => simpa [add_assoc] using ih (h.qstep_snd s)

/-- R148 from error 0. -/
theorem errorOfSum_quantizeFrom_zero (W : Nat) (ss : List ℚ) : ErrorOfSum W (quantizeFrom W 0 ss).2 ss.sum := by
  have hzero : ErrorOfSum W 0 0 := ⟨0, by simp⟩
  simpa using hzero.quantizeFrom_snd ss

/-! ### The no-overload invariant (R141) -/

/-- R141: `XMAX(W)` scales to at most `HALF - 1`. -/
theorem scaleValue_le_of_le_xMax (hW : 1 ≤ W) {u : ℚ} (hu : u ≤ xMax W) : scaleValue W u ≤ half W - 1 := by
  have hpos : (0 : Int) < mask W := by
    have := mask_add_one W
    have := Nat.le_self_pow (Nat.one_le_iff_ne_zero.1 hW) 2
    omega
  have hmax : (xMax W : ℚ) * mask W ≤ ((half W : ℚ) - 1) * 65536 := by
    exact_mod_cast Int.ediv_mul_le (((half W : Int) - 1) * 65536) hpos.ne'
  have hle : u * mask W ≤ xMax W * mask W := by gcongr
  rw [scaleValue, gain, div_mul_eq_mul_div, div_le_iff₀ (by norm_num)]
  linarith

/-- R141: a value that is not above `XMAX(W)` cannot overload. -/
theorem noWrap_scaleValue (hW : 1 ≤ W) {u : ℚ} (hlo : -32768 ≤ u) (hhi : u ≤ xMax W) : NoWrap W (scaleValue W u) :=
  ⟨neg_half_le_scaleValue hW hlo, scaleValue_le_of_le_xMax hW hhi⟩

/-- R141: a span between two samples up to `XMAX(W)` has no value above it (R108). -/
theorem noWrap_interpValue (hF : 1 ≤ F) (hW : 1 ≤ W) {xl xr : Sample} (hl : s16 xl ≤ xMax W) (hr : s16 xr ≤ xMax W)
    {j : Nat} (hj : j ≤ F) : NoWrap W (scaleValue W (interpValue F xl xr j)) := by
  obtain ⟨-, hlo, -⟩ := valueInRange_interpValue hF xl xr hj
  obtain ⟨-, hhi⟩ := interpValue_mem_uIcc hF xl xr hj
  exact noWrap_scaleValue hW hlo (hhi.trans (max_le (by exact_mod_cast hl) (by exact_mod_cast hr)))

variable {ev : Event} {σ τ : State}

/-- A block in its reset state, whatever the host has still to send (R32). -/
theorem BlockIdle.noOverload (h : BlockIdle σ)
    (htoSend : ∀ w ∈ σ.toSend, ∀ x, decodeCommand w = .smp x → s16 x ≤ xMax σ.cfg.W) : NoOverload σ := by
  obtain ⟨hvl, hact, hph, herr, -, -, -, hci, hcu, -, -⟩ := h
  exact {
    err_fraction := by simp [herr]
    phase_lt := hph ▸ σ.cfg.ok.1
    left := by simp [hvl, hact]
    right := by simp [hact]
    commands := by simp [hci]
    toCome := htoSend
    values := by simp [hcu] }

/-- `NoOverload` does not speak of the schedule or of the counter of free values. -/
theorem NoOverload.advance (h : NoOverload σ) : NoOverload (advance σ) := by
  unfold Machine.advance
  split <;> exact { h with }

/-- A span that ends leaves its right sample in `XL` (R112). -/
theorem NoOverload.nextPhase (h : NoOverload σ) (hact : σ.act = true) : NoOverload (nextPhase σ) := by
  unfold Machine.nextPhase
  split
  · next hlt => exact { h with phase_lt := hlt }
  · exact { h with phase_lt := σ.cfg.ok.1, left := fun _ => h.right hact, right := nofun }

/-- A value pushed into `CU` that scales into the no-wrap range. -/
theorem NoOverload.pushValue (h : NoOverload σ) {u : ℚ} (hu : NoWrap σ.cfg.W (scaleValue σ.cfg.W u)) :
    NoOverload { σ with cu := σ.cu ++ [.val u] } :=
  { h with
    values := fun v hv => by
      rcases List.mem_append.1 hv with hv | hv
      · exact h.values v hv
      · cases List.mem_singleton.1 hv
        exact hu }

/-- R141: every internal step keeps the invariant: for each step, the parts that it touches. -/
theorem Effect.noOverload (heff : Effect ev σ τ) (h : NoOverload σ) : NoOverload τ := by
  obtain ⟨hF, hW, -⟩ := σ.cfg.ok
  cases heff with
  | @upsFirst _ x rest hact hvl hci =>
    exact { h with
      left := fun _ => h.commands x (by simp [hci])
      commands := fun y hy => h.commands y (by simp [hci, hy]) }
  | @upsNext _ x rest hact hvl hci =>
    exact { h with
      phase_lt := hF
      left := fun _ => h.left (.inl hvl)
      right := fun _ => h.commands x (by simp [hci])
      commands := fun y hy => h.commands y (by simp [hci, hy]) }
  | upsEmit hact hroom =>
    have hvalue := noWrap_interpValue hF hW (h.left (.inr hact)) (h.right hact) h.phase_lt.le
    rw [← nextPhase_cu σ]
    exact (h.nextPhase hact).pushValue (by simpa using hvalue)
  | upsTail hact hvl hci =>
    have hleft := h.left (.inl hvl)
    exact { h with phase_lt := hF, left := fun _ => hleft, right := fun _ => hleft }
  | upsFwd hact hvl hci hroom =>
    exact { h with
      commands := fun y hy => h.commands y (by simp [hci, hy])
      values := fun v hv => h.values v (by simpa using hv) }
  | @qntStep _ u rest hcu hroom =>
    obtain ⟨he0, he1⟩ := h.err_fraction
    have hu : NoWrap σ.cfg.W (scaleValue σ.cfg.W u) := h.values u (by simp [hcu])
    exact { h with
      err_fraction := hu.qstep_snd_fraction hW he0 he1
      values := fun v hv => h.values v (by simp [hcu, hv]) }
  | qntEnd hcu hroom =>
    exact { h with
      err_fraction := ⟨le_rfl, one_pos⟩
      values := fun v hv => h.values v (by simp [hcu, hv]) }
  | pckShift | pckSend | pckPad | pckEor => exact { h with }

/-- R141: every move keeps the invariant: the host's two, the reset input's and the block's own. -/
theorem Moves.noOverload (hmove : Moves ev σ τ) (h : NoOverload σ) : NoOverload τ := by
  cases hmove with
  | @put _ w ws c hsend hready hdec =>
    exact { h with
      commands := fun x hx => by
        rcases List.mem_append.1 hx with hx | hx
        · exact h.commands x hx
        · cases List.mem_singleton.1 hx
          exact h.toCome w (by simp [hsend]) x hdec
      toCome := fun w' hw' => h.toCome w' (by simp [hsend, hw']) }
  | take hco => exact { h with }
  | reset => exact (blockIdle_applyReset σ).noOverload h.toCome
  | internal heff => exact heff.noOverload h

/-! ### The steps of a run -/

theorem valueWaits_eq_false (h : ∀ u rest, σ.cu ≠ .val u :: rest) : valueWaits σ = false :=
  Bool.eq_false_iff.2 fun hwaits => by
    obtain ⟨u, rest, hcu⟩ := valueWaits_iff.1 hwaits
    exact h u rest hcu

/-- R144: the QNT.STEPs on the values at the head of `CU` push the codes of `quantize_from` from the current error. -/
theorem runSchedule_qntSteps {us : List ℚ} {rest : List ValTok} {es : List Event} (hcap : σ.cfg.capCC = none)
    (hcu : σ.cu = us.map .val ++ rest) :
    runSchedule (List.replicate us.length .qntStep ++ es) σ = runSchedule es { σ with
      cu := rest
      cc := σ.cc ++ (quantizeFrom σ.cfg.W σ.err (scale σ.cfg.W us)).1.map .code
      err := (quantizeFrom σ.cfg.W σ.err (scale σ.cfg.W us)).2 } := by
  induction us generalizing σ with
  | nil => simp [scale, ← show σ.cu = rest from hcu]
  | cons u us ih =>
    rw [List.length_cons, List.replicate_succ, List.cons_append,
      (Effect.qntStep hcu (by simp [hcap])).runSchedule_cons, ih (by exact hcap) rfl]
    simp [scale]

end Sys2Proof.Machine

namespace Sys2Proof

open Sys2Proof.Machine

/-- Settles O43: an event waits or moves, and every move keeps the no-overload invariant. -/
theorem safeSamplesKeepTheErrorAFraction : Obligations.SafeSamplesKeepTheErrorAFraction := by
  intro s t h hstep
  rcases eq_or_moves_of_perform hstep with rfl | hmove
  · exact h.advance
  · exact hmove.noOverload h.advance

/-- Settles O46, by induction on the values. -/
theorem codesStayInRange : Obligations.CodesStayInRange := fun W e ss =>
  ⟨length_quantizeFrom W e ss, fun _ => le_mask_of_mem_quantizeFrom⟩

/-- Settles O47: the sum of the rational step is `T / D`, whose floor is the integer quotient. -/
theorem integerStepEqualsRationalStep : Obligations.IntegerStepEqualsRationalStep := fun _ W E U hF _ =>
  ⟨qstep_fst_eq_qstepInt hF W E U, qstep_snd_eq_qstepInt hF W E U, qstepInt_snd_of_noWrap⟩

/-- Settles O48: the floored sum is a code, so there is no wrap and the error is a fraction. -/
theorem noWrapKeepsTheErrorAFraction : Obligations.NoWrapKeepsTheErrorAFraction := by
  intro W e s hW he0 he1 hs
  obtain ⟨hlo, hhi⟩ := hs.floored_mem hW he0 he1
  obtain ⟨hcode, herror⟩ := qstep_of_floored_le_mask hlo hhi
  exact ⟨hlo, hhi, hcode, herror, hs.qstep_snd_fraction hW he0 he1⟩

/-- Settles O49: the code is a remainder, and the quotient goes into the error. -/
theorem overloadAliasesIntoTheError : Obligations.OverloadAliasesIntoTheError := fun W e s _ =>
  ⟨qstep_fst_eq_sub W e s, qstep_snd_eq_fract_add W e s⟩

/-- Settles O50, by induction on the values. -/
theorem codesDependOnTheErrorModulo : Obligations.CodesDependOnTheErrorModulo := by
  intro W m e ss _
  rw [quantizeFrom_add_multiple]
  exact ⟨rfl, rfl⟩

/-- Settles O51: the sum identity, and the closed form from the invariant that ties the error to the running sum. (The
statement reads the codes as rationals by a monadic coercion, which is a `List.map`.) -/
theorem runningSumGivesTheCodes : Obligations.RunningSumGivesTheCodes := by
  intro W ss _
  have herror := errorOfSum_quantizeFrom_zero W ss
  refine ⟨fun e => ?_, fun s => ?_, herror⟩
  · simpa [← List.map_eq_flatMap, Function.comp_def] using quantizeFrom_snd_eq_sum W e ss
  · simp only [quantize, quantizeFrom_append, quantizeFrom_cons, quantizeFrom_nil, herror.qstep_fst]

/-- Settles O55: the QNT.STEPs follow the fold; QNT.END then clears the error. -/
theorem quantizerComputesQuantize : Obligations.QuantizerComputesQuantize := by
  intro s us rest hcap
  refine ⟨fun hcu => ?_, fun herr hcu => ?_⟩
  · simpa [runSchedule_nil] using runSchedule_qntSteps (es := []) hcap hcu
  · rw [qntSchedule, runSchedule_qntSteps hcap hcu, (Effect.qntEnd rfl (by simp [hcap])).runSchedule_cons,
      runSchedule_nil]
    simp [quantize, herr]

/-- Settles O24: `v`, `Q` and `q` are the values of `qstep`; the guard fails without a value or without room. -/
theorem qntStepQuantizesOneValue : Obligations.QntStepQuantizesOneValue := by
  intro s hnext
  refine ⟨fun u rest hcu hroom => ?_, fun hguard => ?_⟩
  · obtain ⟨hlo, hhi⟩ := floored_bounds s.cfg.W (scaleValue s.cfg.W u + s.err)
    have heff : Effect .qntStep (advance s) _ := .qntStep ((advance_cu s).trans hcu) (by simpa using hroom)
    refine ⟨_, _, (qstep s.cfg.W s.err (scaleValue s.cfg.W u)).1, ?_, hlo, hhi, qstep_fst _ _ _, ?_⟩
    · rw [scaleValue, gain, mask_cast]
    · simpa [qstep] using step_of_effect hnext heff
  · apply step_of_not_enabled hnext
    rcases hguard with hcu | hroom
    · simp [enabled, valueWaits_eq_false hcu]
    · simp [enabled, hroom]

/-- Settles O25: the effect, and the guard with the room of `CC` in it. -/
theorem qntEndClearsTheError : Obligations.QntEndClearsTheError := by
  intro s hnext
  refine ⟨fun rest hcu hroom => ?_, fun hguard => ?_⟩
  · have heff : Effect .qntEnd (advance s) _ := .qntEnd ((advance_cu s).trans hcu) (by simpa using hroom)
    simpa using step_of_effect hnext heff
  · apply step_of_not_enabled hnext
    rcases hguard with hcu | hroom
    · simp [enabled, List.head?_eq_some_iff, hcu]
    · simp [enabled, hroom]

end Sys2Proof
end

section
/-! PROOFS. The statements of 42_packer.md: the byte of a group (R172, R175), taking it apart again (R176), the three
steps of the PCK agent (R177 to R179) and what they compute on a run (R180). A group is read as a number in base `2^W`,
its first code the highest digit: shifting a code in appends a digit, padding appends zeros. `pack` and the steps are
both followed group by group. -/

namespace Sys2Proof.Machine

variable {s : State} {p : Config.Params} {W : Nat}

/-! ### The byte of a group -/

/-- R172, R177: a further code of a group becomes its lowest digit. -/
theorem byteSum_concat (W : Nat) (cs : List Nat) (q : Nat) :
    byteSum W (cs.length + 1) (cs ++ [q]) = byteSum W cs.length cs * 2 ^ W + q := by
  have hdigit : ∀ m ∈ List.range cs.length, (cs ++ [q]).getD m 0 * 2 ^ (W * (cs.length + 1 - 1 - m)) =
      cs.getD m 0 * 2 ^ (W * (cs.length - 1 - m)) * 2 ^ W := by
    intro m hm
    have hm : m < cs.length := List.mem_range.1 hm
    rw [List.getD_append _ _ _ _ hm, mul_assoc, ← pow_add, ← Nat.mul_succ,
      show cs.length + 1 - 1 - m = (cs.length - 1 - m).succ by omega]
  rw [byteSum, List.range_succ, List.map_append, List.sum_append, List.map_congr_left hdigit, List.sum_map_mul_right]
  simp [byteSum]

/-- R172: the byte of a group is a number in base `2^W`. -/
theorem byteSum_eq_ofDigits (W : Nat) (cs : List Nat) : byteSum W cs.length cs = Nat.ofDigits (2 ^ W) cs.reverse := by
  induction cs using List.reverseRecOn with
  | nil => rfl
  | append_singleton cs q ih =>
    rw [List.length_append, List.length_singleton, byteSum_concat, ih, List.reverse_concat, Nat.ofDigits_cons]
    ring

/-- R173, R178: the codes that fill a group up are zero digits. -/
theorem byteSum_append_zeros (W : Nat) (cs : List Nat) (n : Nat) :
    byteSum W (cs.length + n) (cs ++ List.replicate n padCode) = byteSum W cs.length cs * 2 ^ (W * n) := by
  have hlen : cs.length + n = (cs ++ List.replicate n padCode).length := by simp
  rw [hlen, byteSum_eq_ofDigits, List.reverse_append, List.reverse_replicate, Nat.ofDigits_append, padCode,
    Nat.ofDigits_replicate_zero, List.length_replicate, zero_add, ← byteSum_eq_ofDigits, pow_mul, mul_comm]

theorem lt_two_pow_of_le_mask {q : Nat} (hq : q ≤ mask W) : q < 2 ^ W :=
  mask_add_one W ▸ Nat.lt_succ_of_le hq

/-- R73: codes of `W` bits make a number of `W` bits each. -/
theorem byteSum_lt (hW : 1 ≤ W) {cs : List Nat} (hcs : ∀ q ∈ cs, q ≤ mask W) :
    byteSum W cs.length cs < 2 ^ (W * cs.length) := by
  rw [byteSum_eq_ofDigits, pow_mul, ← List.length_reverse]
  exact Nat.ofDigits_lt_base_pow_length (Nat.one_lt_two_pow (Nat.one_le_iff_ne_zero.1 hW))
    fun q hq => lt_two_pow_of_le_mask (hcs q (List.mem_reverse.1 hq))

/-- R176: shifting and masking reads a code of a group. -/
theorem byteSum_shiftRight_and_mask {cs : List Nat} (hcs : ∀ q ∈ cs, q ≤ mask W) {m : Nat} (hm : m < cs.length) :
    (byteSum W cs.length cs >>> (W * (cs.length - 1 - m))) &&& mask W = cs[m] := by
  have hdrop : cs.reverse.drop (cs.length - 1 - m) = cs[m] :: cs.reverse.drop (cs.length - 1 - m + 1) := by
    rw [List.drop_eq_getElem_cons (by simp; omega)]
    simp [show cs.length - 1 - (cs.length - 1 - m) = m by omega]
  rw [mask, Nat.and_two_pow_sub_one_eq_mod, Nat.shiftRight_eq_div_pow, byteSum_eq_ofDigits, pow_mul,
    Nat.ofDigits_div_pow_eq_ofDigits_drop _ (by positivity)
      _ fun q hq => lt_two_pow_of_le_mask (hcs q (List.mem_reverse.1 hq)),
    hdrop, Nat.ofDigits_cons, Nat.add_mul_mod_self_left]
  exact Nat.mod_eq_of_lt (lt_two_pow_of_le_mask (hcs _ (List.getElem_mem hm)))

/-- R73, R172: no bit of a group is lost in its byte. -/
theorem byteOf_toNat {cs : List Nat} (hlen : cs.length ≤ codesPerByte p) (hcs : ∀ q ∈ cs, q ≤ mask p.W) :
    (byteOf p.W cs.length cs).toNat = byteSum p.W cs.length cs := by
  have hbits : p.W * cs.length ≤ 8 := (Nat.mul_le_mul_left _ hlen).trans (width_mul_codesPerByte_le p)
  exact Nat.mod_eq_of_lt ((byteSum_lt p.ok.2.1 hcs).trans_le (Nat.pow_le_pow_right two_pos hbits))

/-- R176 for one byte. -/
theorem unpack_byteOf {cs : List Nat} (hlen : cs.length = codesPerByte p) (hcs : ∀ q ∈ cs, q ≤ mask p.W) :
    unpack p (byteOf p.W (codesPerByte p) cs) = cs := by
  refine List.ext_getElem (by simp [unpack, hlen]) fun m _ hm => ?_
  simp only [unpack, List.getElem_map, List.getElem_range, ← hlen]
  rw [byteOf_toNat hlen.le hcs, byteSum_shiftRight_and_mask hcs hm]

/-! ### Shifting in and padding -/

/-- R177 in terms of numbers: the mask `& 0xFF` is the register's width. -/
theorem shiftIn_eq_ofNat (W : Nat) (acc : Byte) (q : Nat) :
    shiftIn W acc q = BitVec.ofNat 8 ((acc.toNat <<< W) ||| q) :=
  BitVec.eq_of_toNat_eq (by simp [shiftIn])

theorem shiftLeft_or_eq {q : Nat} (hq : q ≤ mask W) (n : Nat) : (n <<< W) ||| q = n * 2 ^ W + q := by
  rw [← Nat.shiftLeft_add_eq_or_of_lt (lt_two_pow_of_le_mask hq), Nat.shiftLeft_eq]

/-- R177: where the register holds `c` codes and a group has room for one more, the mask removes no bit. -/
theorem shiftIn_toNat {acc : Byte} {q c : Nat} (hc : c < codesPerByte p) (hacc : acc.toNat < 2 ^ (p.W * c))
    (hq : q ≤ mask p.W) : (shiftIn p.W acc q).toNat = acc.toNat * 2 ^ p.W + q := by
  have hbits : p.W * (c + 1) ≤ 8 := (Nat.mul_le_mul_left _ hc).trans (width_mul_codesPerByte_le p)
  have hlt : acc.toNat * 2 ^ p.W + q < 2 ^ 8 :=
    calc acc.toNat * 2 ^ p.W + q < (acc.toNat + 1) * 2 ^ p.W := by
          rw [Nat.succ_mul]
          exact Nat.add_lt_add_left (lt_two_pow_of_le_mask hq) _
      _ ≤ 2 ^ (p.W * c) * 2 ^ p.W := Nat.mul_le_mul_right _ hacc
      _ = 2 ^ (p.W * (c + 1)) := by rw [← pow_add, Nat.mul_succ]
      _ ≤ 2 ^ 8 := Nat.pow_le_pow_right two_pos hbits
  rw [shiftIn_eq_ofNat, shiftLeft_or_eq hq, BitVec.toNat_ofNat, Nat.mod_eq_of_lt hlt]

/-- R177: shifting the next code in gives the byte of the longer group. -/
theorem byteOf_concat {q : Nat} (hq : q ≤ mask W) (cs : List Nat) :
    byteOf W (cs.length + 1) (cs ++ [q]) = shiftIn W (byteOf W cs.length cs) q := by
  rw [shiftIn_eq_ofNat, shiftLeft_or_eq hq, byteOf, byteSum_concat]
  exact BitVec.eq_of_toNat_eq (by simp [byteOf, Nat.add_mod, Nat.mul_mod])

/-- R172, R177: the codes of a group shifted in one after another make its byte. -/
theorem foldl_shiftIn {cs : List Nat} (hcs : ∀ q ∈ cs, q ≤ mask W) :
    cs.foldl (shiftIn W) 0#8 = byteOf W cs.length cs := by
  induction cs using List.reverseRecOn with
  | nil => rfl
  | append_singleton cs q ih =>
    obtain ⟨hcs, hq⟩ := List.forall_mem_append.1 hcs
    rw [List.foldl_concat, ih hcs, List.length_append, List.length_singleton, byteOf_concat (hq q (by simp))]

/-- R178 in terms of numbers. -/
theorem padOut_eq_ofNat (p : Config.Params) (acc : Byte) (cnt : Nat) :
    padOut p acc cnt = BitVec.ofNat 8 (acc.toNat <<< (p.W * (codesPerByte p - cnt))) := rfl

/-- R178: padding gives the byte of the group filled up with zero codes. -/
theorem padOut_byteOf {cs : List Nat} (hlen : cs.length ≤ codesPerByte p) :
    padOut p (byteOf p.W cs.length cs) cs.length =
      byteOf p.W (codesPerByte p) (cs ++ List.replicate (codesPerByte p - cs.length) padCode) := by
  have hsum := byteSum_append_zeros p.W cs (codesPerByte p - cs.length)
  rw [Nat.add_sub_cancel' hlen] at hsum
  rw [padOut_eq_ofNat, byteOf, byteOf, hsum, Nat.shiftLeft_eq]
  exact BitVec.eq_of_toNat_eq (by simp [Nat.mul_mod])

/-! ### Packing group by group (R175) -/

/-- Codes are packed in groups of `K`: what holds of a short last group, and of codes after a full group when it holds
of the rest, holds of all codes. -/
theorem groups_induction {K : Nat} (hK : 1 ≤ K) {P : List Nat → Prop} (short : ∀ cs, cs.length < K → P cs)
    (full : ∀ group more, group.length = K → P more → P (group ++ more)) (codes : List Nat) : P codes := by
  by_cases hlen : codes.length < K
  · exact short codes hlen
  · rw [← codes.take_append_drop K]
    have hgroup : (codes.take K).length = K := List.length_take_of_le (Nat.le_of_not_lt hlen)
    exact full _ _ hgroup (groups_induction hK short full (codes.drop K))
termination_by codes.length
decreasing_by rw [List.length_drop]; omega

theorem padded_full {K : Nat} {group more : List Nat} (hlen : group.length = K) :
    padded K (group ++ more) = group ++ padded K more := by
  simp [padded, hlen]

theorem padded_of_mod_eq_zero {K : Nat} {codes : List Nat} (h : codes.length % K = 0) : padded K codes = codes := by
  simp [padded, h]

theorem padded_of_mod_ne_zero {K : Nat} (hK : 1 ≤ K) {codes : List Nat} (h : codes.length % K ≠ 0) :
    padded K codes = codes ++ List.replicate (K - codes.length % K) padCode := by
  have hlt := Nat.mod_lt codes.length hK
  rw [padded, Nat.mod_eq_of_lt (by omega)]

theorem padded_short {K : Nat} {codes : List Nat} (hpos : 0 < codes.length) (hlen : codes.length < K) :
    padded K codes = codes ++ List.replicate (K - codes.length) padCode := by
  have hmod : codes.length % K = codes.length := Nat.mod_eq_of_lt hlen
  rw [padded_of_mod_ne_zero (by omega) (by omega), hmod]

theorem pack_flag (p : Config.Params) (codes : List Nat) :
    (pack p codes).2 = decide (codes.length % codesPerByte p ≠ 0) := rfl

@[simp] theorem pack_nil (p : Config.Params) : pack p [] = ([], false) := by
  simp [pack, padded]

/-- R175: a full group gives its byte, and the rest is packed by itself. -/
theorem pack_full {group more : List Nat} (hlen : group.length = codesPerByte p) :
    pack p (group ++ more) = (byteOf p.W (codesPerByte p) group :: (pack p more).1, (pack p more).2) := by
  have hgroups : (group ++ padded (codesPerByte p) more).length / codesPerByte p =
      (padded (codesPerByte p) more).length / codesPerByte p + 1 := by
    rw [List.length_append, hlen, Nat.add_div_left _ (codesPerByte_pos p)]
  have hnext : ∀ g, (group ++ padded (codesPerByte p) more).drop ((g + 1) * codesPerByte p) =
      (padded (codesPerByte p) more).drop (g * codesPerByte p) := fun g => by
    rw [Nat.succ_mul, Nat.add_comm, ← hlen, List.drop_length_add_append]
  simp only [pack, padded_full hlen, hgroups, List.range_succ_eq_map, List.map_cons, List.map_map]
  simp [Function.comp_def, hnext, hlen]

/-- R175: a short last group gives the byte of the group filled up, and the flag. -/
theorem pack_short {codes : List Nat} (hpos : 0 < codes.length) (hlen : codes.length < codesPerByte p) :
    pack p codes =
      ([byteOf p.W (codesPerByte p) (codes ++ List.replicate (codesPerByte p - codes.length) padCode)], true) := by
  have hfilled : codes.length + (codesPerByte p - codes.length) = codesPerByte p := Nat.add_sub_cancel' hlen.le
  simp [pack, padded_short hpos hlen, Nat.mod_eq_of_lt hlen, hfilled, Nat.div_self (codesPerByte_pos p),
    List.take_of_length_le, Nat.ne_of_gt hpos]

/-- R175, R176: the bytes of `pack` hold the codes and the padding. -/
theorem flatMap_unpack_pack {codes : List Nat} (hcodes : ∀ q ∈ codes, q ≤ mask p.W) :
    (pack p codes).1.flatMap (unpack p) = padded (codesPerByte p) codes := by
  induction codes using groups_induction (codesPerByte_pos p) with
  | short codes hlen =>
    rcases Nat.eq_zero_or_pos codes.length with hzero | hpos
    · obtain rfl := List.length_eq_zero_iff.1 hzero
      rw [pack_nil, padded_of_mod_eq_zero (by simp), List.flatMap_nil]
    · have hfilled : ∀ q ∈ codes ++ List.replicate (codesPerByte p - codes.length) padCode, q ≤ mask p.W :=
        List.forall_mem_append.2 ⟨hcodes, fun q hq => (List.eq_of_mem_replicate hq).trans_le (Nat.zero_le _)⟩
      rw [pack_short hpos hlen, padded_short hpos hlen, List.flatMap_singleton, unpack_byteOf (by simp; omega) hfilled]
  | full group more hlen ih =>
    obtain ⟨hgroup, hmore⟩ := List.forall_mem_append.1 hcodes
    rw [pack_full hlen, padded_full hlen, List.flatMap_cons, unpack_byteOf hlen hgroup, ih hmore]

/-! ### The steps of a run -/

theorem codeWaits_eq_false (h : ∀ q rest, s.cc ≠ .code q :: rest) : codeWaits s = false :=
  Bool.eq_false_iff.2 fun hwaits => by
    obtain ⟨q, rest, hcc⟩ := codeWaits_iff.1 hwaits
    exact h q rest hcc

section Schedules

variable {es : List Event} {rest : List CodeTok}

/-- R177: the PCK.SHIFTs on codes that leave the group open. -/
theorem runSchedule_shifts {cs : List Nat} (hopen : s.cnt + cs.length < codesPerByte s.cfg)
    (hcc : s.cc = cs.map .code ++ rest) :
    runSchedule (List.replicate cs.length .pckShift ++ es) s = runSchedule es { s with
      cc := rest, acc := cs.foldl (shiftIn s.cfg.W) s.acc, cnt := s.cnt + cs.length } := by
  induction cs generalizing s with
  | nil => simp [← show s.cc = rest from hcc]
  | cons q cs ih =>
    rw [List.length_cons] at hopen
    rw [List.length_cons, List.replicate_succ, List.cons_append,
      (Effect.pckShift hcc (by omega)).runSchedule_cons, ih (by simp only; omega) rfl]
    simp [Nat.add_assoc, Nat.add_comm 1]

/-- R177: the PCK.SHIFTs of a full group send its byte. -/
theorem runSchedule_group {cs : List Nat} (hlen : cs.length = codesPerByte s.cfg) (hcs : ∀ q ∈ cs, q ≤ mask s.cfg.W)
    (hacc : s.acc = 0#8) (hcnt : s.cnt = 0) (hcap : s.cfg.capCO = none) (hcc : s.cc = cs.map .code ++ rest) :
    runSchedule (List.replicate (codesPerByte s.cfg) .pckShift ++ es) s = runSchedule es { s with
      cc := rest, co := s.co ++ [.dat (byteOf s.cfg.W (codesPerByte s.cfg) cs)] } := by
  have hne : cs ≠ [] := List.ne_nil_of_length_pos (hlen ▸ codesPerByte_pos s.cfg)
  obtain ⟨init, q, rfl⟩ := (List.eq_nil_or_concat' cs).resolve_left hne
  rw [← hlen, ← foldl_shiftIn hcs]
  rw [List.map_append, List.append_assoc] at hcc
  rw [List.length_append, List.length_singleton] at hlen ⊢
  rw [List.replicate_succ', List.append_assoc, runSchedule_shifts (by omega) hcc, List.singleton_append,
    (Effect.pckSend rfl (by simp only; omega) (by simp [hcap])).runSchedule_cons]
  simp [hacc, hcnt]

theorem pckSchedule_add (K n : Nat) : pckSchedule K (K + n) = List.replicate K .pckShift ++ pckSchedule K n := by
  rw [pckSchedule, pckSchedule, Nat.add_mod_left, List.replicate_add]
  simp only [List.append_assoc]

theorem pckSchedule_short {K n : Nat} (hpos : 0 < n) (hn : n < K) :
    pckSchedule K n = List.replicate n .pckShift ++ [.pckPad, .pckEor] := by
  simp [pckSchedule, Nat.mod_eq_of_lt hn, Nat.ne_of_gt hpos]

/-- R178, R179: the steps of a short last group pad it, send it and report it. -/
theorem runSchedule_short {cs : List Nat} (hpos : 0 < cs.length) (hlen : cs.length < codesPerByte s.cfg)
    (hcs : ∀ q ∈ cs, q ≤ mask s.cfg.W) (hacc : s.acc = 0#8) (hcnt : s.cnt = 0) (htrunc : s.trunc = false)
    (hcap : s.cfg.capCO = none) (hcc : s.cc = cs.map .code ++ .endRun :: rest) :
    runSchedule (pckSchedule (codesPerByte s.cfg) cs.length) s = .next { s with
      sched := []
      cc := rest
      co := s.co ++ (pack s.cfg cs).1.map .dat ++ [.eor (pack s.cfg cs).2] } := by
  rw [pckSchedule_short hpos hlen, runSchedule_shifts (by omega) hcc,
    (Effect.pckPad rfl (by simp only; omega) (by simp [hcap])).runSchedule_cons,
    (Effect.pckEor rfl rfl (by simp [hcap])).runSchedule_cons, runSchedule_nil, pack_short hpos hlen,
    ← padOut_byteOf hlen.le, ← foldl_shiftIn hcs]
  simp [hacc, hcnt, htrunc]

/-- R180, group by group: the full groups send their bytes, then the last group, short or empty, ends the run. -/
theorem runSchedule_pckSchedule {codes : List Nat} (hp : s.cfg = p) (hacc : s.acc = 0#8) (hcnt : s.cnt = 0)
    (htrunc : s.trunc = false) (hcap : p.capCO = none) (hcodes : ∀ q ∈ codes, q ≤ mask p.W)
    (hcc : s.cc = codes.map .code ++ .endRun :: rest) :
    runSchedule (pckSchedule (codesPerByte p) codes.length) s = .next { s with
      sched := []
      cc := rest
      co := s.co ++ (pack p codes).1.map .dat ++ [.eor (pack p codes).2] } := by
  induction codes using groups_induction (codesPerByte_pos p) generalizing s with
  | short codes hlen =>
    subst hp
    rcases Nat.eq_zero_or_pos codes.length with hzero | hpos
    · obtain rfl := List.length_eq_zero_iff.1 hzero
      have heor : Effect .pckEor s _ := .pckEor hcc hcnt (by simp [hcap])
      refine heor.runSchedule_cons.trans ?_
      simp [runSchedule_nil, htrunc]
    · exact runSchedule_short hpos hlen hcodes hacc hcnt htrunc hcap hcc
  | full group more hlen ih =>
    subst hp
    obtain ⟨hgroup, hmore⟩ := List.forall_mem_append.1 hcodes
    rw [List.map_append, List.append_assoc] at hcc
    rw [List.length_append, hlen, pckSchedule_add, runSchedule_group hlen hgroup hacc hcnt hcap hcc,
      ih (by rfl) (by exact hacc) (by exact hcnt) (by exact htrunc) hmore rfl, pack_full hlen]
    simp

end Schedules

end Sys2Proof.Machine

namespace Sys2Proof

open Sys2Proof.Machine

/-- Settles O52: the bytes hold the codes and the padding, and the flag says whether there is any. -/
theorem unpackingGivesTheCodesBack : Obligations.UnpackingGivesTheCodesBack := by
  intro p codes hcodes
  rw [flatMap_unpack_pack hcodes, pack_flag]
  refine ⟨fun hflag => ?_, fun hflag => ?_⟩
  · exact padded_of_mod_eq_zero (by simpa using hflag)
  · exact padded_of_mod_ne_zero (codesPerByte_pos p) (by simpa using hflag)

/-- Settles O56, by the steps of each group. -/
theorem packerComputesPack : Obligations.PackerComputesPack := by
  intro s codes rest hacc hcnt htrunc hcap hcodes hcc
  exact runSchedule_pckSchedule rfl hacc hcnt htrunc hcap hcodes hcc

/-- Settles O26: the two effects, the two ways in which the guard fails, and the mask. -/
theorem pckShiftPacksOneCode : Obligations.PckShiftPacksOneCode := by
  intro s hnext
  refine ⟨fun q rest hcc => ?_, fun hcc => ?_⟩
  · have hcc' := (advance_cc s).trans hcc
    rw [← shiftIn_eq_ofNat]
    refine ⟨fun hopen => ?_, fun hlast hroom => ?_, fun hlast hroom => ?_, shiftIn_toNat⟩
    · have heff : Effect .pckShift (advance s) _ := .pckShift hcc' (by simpa using hopen)
      simpa using step_of_effect hnext heff
    · have heff : Effect .pckShift (advance s) _ := .pckSend hcc' (by simpa using hlast) (by simpa using hroom)
      simpa using step_of_effect hnext heff
    · exact step_of_not_enabled hnext (by simp [enabled, hroom, hlast])
  · exact step_of_not_enabled hnext (by simp [enabled, codeWaits_eq_false hcc])

/-- Settles O27: the effect, and each way in which the guard fails. -/
theorem pckPadCompletesAShortGroup : Obligations.PckPadCompletesAShortGroup := by
  intro s hnext
  refine ⟨fun rest hcc hcnt hroom => ?_, fun hguard => ?_⟩
  · have heff : Effect .pckPad (advance s) _ :=
      .pckPad ((advance_cc s).trans hcc) (by simpa using hcnt) (by simpa using hroom)
    simpa [padOut_eq_ofNat] using step_of_effect hnext heff
  · apply step_of_not_enabled hnext
    rcases hguard with hcc | hcnt | hroom
    · simp [enabled, List.head?_eq_some_iff, hcc]
    · simp [enabled, hcnt]
    · simp [enabled, hroom]

/-- Settles O28: the flag is read before it is cleared; the guard fails in three ways. -/
theorem pckEorReportsTheFlag : Obligations.PckEorReportsTheFlag := by
  intro s hnext
  refine ⟨fun rest hcc hcnt hroom => ?_, fun hguard => ?_⟩
  · have heff : Effect .pckEor (advance s) _ :=
      .pckEor ((advance_cc s).trans hcc) ((advance_cnt s).trans hcnt) (by simpa using hroom)
    simpa using step_of_effect hnext heff
  · apply step_of_not_enabled hnext
    rcases hguard with hcc | hcnt | hroom
    · simp [enabled, List.head?_eq_some_iff, hcc]
    · simp [enabled, hcnt]
    · simp [enabled, hroom]

end Sys2Proof
end

section
/-! PROOFS. The statements of 43_commands.md: the two host steps (R200 to R205), guards, liveness and termination
(R209, R216). The work left in a state is a number that falls at every step: so a step that is taken changes the state,
every execution is finite and every state can be drained. -/

namespace Sys2Proof.Machine

variable {e : Event} {s s' t : State}

/-- R209: no event stops the machine. -/
theorem exists_perform_eq (e : Event) (s : State) : ∃ t, perform e s = .next t := by
  rcases perform_waits_or_moves e s with hwait | ⟨t, hmove⟩
  · exact ⟨s, hwait⟩
  · exact ⟨t, hmove.perform_eq⟩

/-! ### The work left in a state -/

/-- A bound on the steps still to come. A token counts for more the further it is from the host's record: a word of `CO`
is taken in one step, a command is put in and may open a span of `F` values. Registers count for what they owe: an open
group its padding (R178), a sample in `XL` its tail (R113), a span its values (R112). -/
def work (s : State) : Nat :=
  s.toSend.length * (5 * s.cfg.F + 3) + s.ci.length * (5 * s.cfg.F + 2) + (if s.vl then 5 * s.cfg.F + 1 else 0) +
    (if s.act then 5 * (s.cfg.F - 1 - s.ph + 1) else 0) + s.cu.length * 4 + s.cc.length * 3 +
    2 * min s.cnt 1 + s.co.length

/-- R216: every internal step does some of the work. -/
theorem Effect.work_lt (h : Effect e s t) : work t < work s := by
  have hF : 1 ≤ s.cfg.F := s.cfg.ok.1
  cases h with
  | upsFirst hact hvl hci => simp [work, hvl, hci, Nat.succ_mul]; omega
  | upsNext hact hvl hci => simp [work, hact, hvl, hci, Nat.succ_mul]; omega
  | upsEmit hact hroom =>
    unfold nextPhase
    split <;> simp [work, hact, Nat.succ_mul] <;> omega
  | upsTail hact hvl hci => simp [work, hact, hvl]; omega
  | upsFwd hact hvl hci hroom => simp [work, hci, Nat.succ_mul]; omega
  | qntStep hcu hroom | qntEnd hcu hroom => simp [work, hcu, Nat.succ_mul]; omega
  | pckShift hcc hcnt => simp [work, hcc, Nat.succ_mul]; omega
  | pckSend hcc hcnt hroom => simp [work, hcc, Nat.succ_mul]; omega
  | pckPad hcc hcnt hroom => simp [work]; omega
  | pckEor hcc hcnt hroom => simp [work, hcc, Nat.succ_mul]; omega

/-- R216: every step does some of the work, the host's two included. -/
theorem Moves.work_lt (h : Moves e s t) (hrst : e ≠ .rst) : work t < work s := by
  cases h with
  | put hsend => simp [work, hsend, Nat.succ_mul]; omega
  | take hco => simp [work, hco]
  | reset => exact absurd rfl hrst
  | internal heff => exact heff.work_lt

/-- A block in its reset state has the commands before it and nothing else (R210). -/
theorem BlockIdle.work_eq (h : BlockIdle s) : work s = s.toSend.length * (5 * s.cfg.F + 3) := by
  obtain ⟨hvl, hact, -, -, -, hcnt, -, hci, hcu, hcc, hco⟩ := h
  simp [work, hvl, hact, hcnt, hci, hcu, hcc, hco]

/-! ### Who can go on -/

/-- R216: UPS waits only for a command or for room in `CU`. -/
theorem exists_upsStep_enabled (h : s.ci ≠ [] ∨ s.act = true) (hroom : room s.cfg.capCU s.cu = true) :
    ∃ e ∈ upsSteps, enabled e s = true := by
  cases hact : s.act with
  | true => exact ⟨.upsEmit, by decide, by simp [enabled, hact, hroom]⟩
  | false =>
    obtain ⟨c, rest, hci⟩ := List.exists_cons_of_ne_nil (h.resolve_right (by simp [hact]))
    cases c with
    | smp x =>
      cases hvl : s.vl with
      | false => exact ⟨.upsFirst, by decide, by simp [enabled, hact, hvl, sampleWaits_iff, hci]⟩
      | true => exact ⟨.upsNext, by decide, by simp [enabled, hact, hvl, sampleWaits_iff, hci]⟩
    | endRun =>
      cases hvl : s.vl with
      | false => exact ⟨.upsFwd, by decide, by simp [enabled, hact, hvl, hci, hroom]⟩
      | true => exact ⟨.upsTail, by decide, by simp [enabled, hact, hvl, hci]⟩

/-- R216: QNT waits only for a token or for room in `CC`. -/
theorem exists_qntStep_enabled (h : s.cu ≠ []) (hroom : room s.cfg.capCC s.cc = true) :
    ∃ e ∈ qntSteps, enabled e s = true := by
  obtain ⟨v, rest, hcu⟩ := List.exists_cons_of_ne_nil h
  cases v with
  | val u => exact ⟨.qntStep, by decide, by simp [enabled, valueWaits_iff, hcu, hroom]⟩
  | endRun => exact ⟨.qntEnd, by decide, by simp [enabled, hcu, hroom]⟩

/-- R216: PCK waits only for a token or for room in `CO`. -/
theorem exists_pckStep_enabled (h : s.cc ≠ []) (hroom : room s.cfg.capCO s.co = true) :
    ∃ e ∈ pckSteps, enabled e s = true := by
  obtain ⟨c, rest, hcc⟩ := List.exists_cons_of_ne_nil h
  cases c with
  | code q => exact ⟨.pckShift, by decide, by simp [enabled, codeWaits_iff, hcc, hroom]⟩
  | endRun =>
    by_cases hcnt : s.cnt = 0
    · exact ⟨.pckEor, by decide, by simp [enabled, hcc, hcnt, hroom]⟩
    · exact ⟨.pckPad, by decide, by simp [enabled, hcc, hcnt, hroom]⟩

theorem hostTake_enabled_iff : enabled .hostTake s = true ↔ s.co ≠ [] := by
  simp [enabled, State.coValid]

/-- R216: the last agent that has something before it finds the channel behind it empty, and an empty channel has
room. -/
theorem exists_enabled_of_token (h : s.ci ≠ [] ∨ s.cu ≠ [] ∨ s.cc ≠ [] ∨ s.act = true) :
    ∃ e ∈ .hostTake :: blockSteps, enabled e s = true := by
  obtain ⟨-, hCU, hCC, hCO⟩ := s.cfg.capsOk
  have mem_of_agent : ∀ {steps : List Event}, steps ⊆ .hostTake :: blockSteps →
      (∃ e ∈ steps, enabled e s = true) → ∃ e ∈ .hostTake :: blockSteps, enabled e s = true :=
    fun hsub ⟨e, he, henabled⟩ => ⟨e, hsub he, henabled⟩
  by_cases hco : s.co = []
  · by_cases hcc : s.cc = []
    · by_cases hcu : s.cu = []
      · have hups : s.ci ≠ [] ∨ s.act = true := by simpa [hcu, hcc] using h
        exact mem_of_agent (by decide) (exists_upsStep_enabled hups (hcu ▸ room_nil hCU))
      · exact mem_of_agent (by decide) (exists_qntStep_enabled hcu (hcc ▸ room_nil hCC))
    · exact mem_of_agent (by decide) (exists_pckStep_enabled hcc (hco ▸ room_nil hCO))
  · exact ⟨.hostTake, by decide, hostTake_enabled_iff.2 hco⟩

/-- R216: what is drained is empty, whatever the capacities, and it has no span to emit. -/
theorem drained_iff : Drained s ↔
    s.toSend = [] ∧ s.ci = [] ∧ s.cu = [] ∧ s.cc = [] ∧ s.co = [] ∧ s.act = false := by
  constructor
  · intro h
    have hempty : ¬ (s.ci ≠ [] ∨ s.cu ≠ [] ∨ s.cc ≠ [] ∨ s.act = true) := fun htoken => by
      obtain ⟨e, he, henabled⟩ := exists_enabled_of_token htoken
      have hrst : e ≠ .rst := by
        rintro rfl
        exact absurd he (by decide)
      exact absurd henabled (by simp [h e hrst])
    obtain ⟨hci, hcu, hcc, hact⟩ : s.ci = [] ∧ s.cu = [] ∧ s.cc = [] ∧ s.act = false := by simpa using hempty
    have hco : s.co = [] := not_not.1 fun hne => by
      simpa [h .hostTake nofun] using hostTake_enabled_iff.2 hne
    have hready : s.ciReady = true := by
      rw [State.ciReady, hci]
      exact room_nil s.cfg.capsOk.1
    have hsend : s.toSend = [] := by simpa [enabled, hready] using h .hostPut nofun
    exact ⟨hsend, hci, hcu, hcc, hco, hact⟩
  · rintro ⟨hsend, hci, hcu, hcc, hco, hact⟩ e he
    cases e <;> simp [enabled, State.coValid, sampleWaits, valueWaits, codeWaits, *] at he ⊢

/-! ### Reaching a state -/

/-- Some schedule without a reset leads from `s` to `t`. -/
def Reaches (s t : State) : Prop := ∃ evs : List Event, .rst ∉ evs ∧ runSchedule evs s = .next t

/-- A step and a way on from there. -/
theorem Moves.reaches (h : Moves e s s') (hrst : e ≠ .rst) (hon : Reaches s' t) : Reaches s t := by
  obtain ⟨evs, hevs, hrun⟩ := hon
  exact ⟨e :: evs, by simp [hrst.symm, hevs], by rw [Machine.runSchedule_cons hrst h.perform_eq, hrun]⟩

/-- R61: whatever is next, a schedule can do everything there is to do. -/
theorem exists_reaches_drained (s : State) : ∃ t, Reaches s t ∧ Drained t := by
  by_cases h : Drained s
  · exact ⟨{ s with sched := [] }, ⟨[], List.not_mem_nil, rfl⟩, by simpa [Drained] using h⟩
  · obtain ⟨e, hrst, henabled⟩ : ∃ e : Event, e ≠ .rst ∧ enabled e s = true := by simpa [Drained] using h
    obtain ⟨s', hmove⟩ := exists_moves_of_enabled henabled
    have hlt := hmove.work_lt hrst
    obtain ⟨t, hreaches, hdrained⟩ := exists_reaches_drained s'
    exact ⟨t, hmove.reaches hrst hreaches, hdrained⟩
termination_by work s

end Sys2Proof.Machine

namespace Sys2Proof

open Sys2Proof.Machine

/-- Settles O11: running the row is the transfer of its token, and the port accepts it. -/
theorem smpAppendsItsSample : Obligations.SmpAppendsItsSample := fun x s hready =>
  (exec_cmdRow (.smp x) s).trans (congrArg _ (putCommand_ready hready))

/-- Settles O12, like SMP with the other token. -/
theorem endAppendsItsToken : Obligations.EndAppendsItsToken := fun s hready =>
  (exec_cmdRow .endRun s).trans (congrArg _ (putCommand_ready hready))

/-- Settles O13: running the row is the transfer of its token, which is the one shown. -/
theorem datIsTakenByTheHost : Obligations.DatIsTakenByTheHost := fun b _ s hco =>
  (exec_outRow (.dat b) s).trans (congrArg _ (takeOutput_head hco))

/-- Settles O14, like DAT with the other token. -/
theorem eorIsTakenByTheHost : Obligations.EorIsTakenByTheHost := fun f _ s hco =>
  (exec_outRow (.eor f) s).trans (congrArg _ (takeOutput_head hco))

/-- Settles O16: the word on each port is the one its fetch finds. -/
theorem stepRunsTheDecodedWord : Obligations.StepRunsTheDecodedWord := by
  refine ⟨fun s w ws i hnext hsend hready hdecode => ?_, fun s w i hnext hshown hdecode => ?_⟩
  · cases hdecode
    rw [step_eq, hnext, perform_hostPut ((advance_toSend s).trans hsend) (by simpa [State.ciReady] using hready)]
  · obtain ⟨u, hhead, rfl⟩ := Option.map_eq_some_iff.1 hshown
    obtain ⟨rest, hco⟩ := List.head?_eq_some_iff.1 hhead
    rw [step_eq, hnext, perform_hostTake ((advance_co s).trans hco) hdecode]

/-- Settles O17: every word is the row of a command token, whose transfer is the step. -/
theorem hostPutPushesTheDecodedCommand : Obligations.HostPutPushesTheDecodedCommand := by
  intro s hnext
  refine ⟨fun w ws hsend hroom => ?_, fun hguard => ?_⟩
  · obtain ⟨c, hdecode⟩ := exists_cmdRow_eq_decodeCommand w
    have hput : Moves .hostPut (advance s) _ :=
      .put ((advance_toSend s).trans hsend) (by simpa [State.ciReady] using hroom) hdecode
    refine ⟨c, congrArg _ hdecode, ?_⟩
    rw [step_eq, hnext, hput.perform_eq, advance_ci]
  · apply step_of_not_enabled hnext
    rcases hguard with hsend | hroom
    · simp [enabled, hsend]
    · simp [enabled, State.ciReady, hroom]

/-- Settles O18: the head of `CO` is taken, and an empty `CO` shows no word. -/
theorem hostTakePopsTheHead : Obligations.HostTakePopsTheHead := by
  intro s hnext
  refine ⟨fun u rest hco => ?_, fun hco => ?_⟩
  · have htake : Moves .hostTake (advance s) _ := .take ((advance_co s).trans hco)
    rw [step_eq, hnext, htake.perform_eq, advance_received]
  · exact step_of_not_enabled hnext (by simp [enabled, State.coValid, hco])

/-- Settles O29: an event waits or moves the machine. -/
theorem everyStepAnswersANextState : Obligations.EveryStepAnswersANextState := fun s =>
  exists_perform_eq (nextEvent s) (advance s)

/-- Settles O30: a move needs its guard, and it changes the state because it does some of the work. -/
theorem guardsAreExact : Obligations.GuardsAreExact := by
  intro e s hrst
  refine ⟨fun hguard => ?_, fun hguard => ?_⟩
  · refine (perform_waits_or_moves e s).resolve_right fun ⟨t, hmove⟩ => ?_
    simpa [hguard] using hmove.enabled
  · obtain ⟨t, hmove⟩ := exists_moves_of_enabled hguard
    refine ⟨t, hmove.perform_eq, ?_⟩
    rintro rfl
    exact lt_irrefl _ (hmove.work_lt hrst)

/-- Settles O37: the host can take a word, or the last agent with something before it has room behind it. -/
theorem noDeadlock : Obligations.NoDeadlock := fun _ => ⟨hostTake_enabled_iff.2, exists_enabled_of_token⟩

/-- Settles O38: the measure is the work left. -/
theorem everyExecutionIsFinite : Obligations.EveryExecutionIsFinite := by
  refine ⟨work, fun n F => n * (5 * F + 3), fun e s t hrst hguard hperform => ?_, fun s h => h.work_eq.le⟩
  obtain ⟨t', hmove⟩ := exists_moves_of_enabled hguard
  obtain rfl := hmove.unique hperform
  exact hmove.work_lt hrst

/-- Settles O39, by induction on the work left. -/
theorem everyStateCanBeDrained : Obligations.EveryStateCanBeDrained := by
  intro s
  obtain ⟨t, ⟨evs, hrst, hrun⟩, hdrained⟩ := exists_reaches_drained s
  exact ⟨evs, t, hrst, hrun, hdrained⟩

end Sys2Proof
end

section
/-! PROOFS. The statements of 43_commands.md on the meaning of a command stream (R206 to R208, R211). The order of steps
does not matter (R62), and neither do the capacities of the channels: what a bounded block does, the same block with
unbounded channels can do as well. There each agent may finish a run before the next agent begins, and what it then
computes is known (R115, R146, R180). Of a run that has no END the spans between its samples are computed in the same
way; the codes of the last group, if it is not full, are held back. -/

namespace Sys2Proof.Config

/-- The same configuration with unbounded channels (R54). -/
def Params.unbounded (p : Params) : Params :=
  { p with capCI := none, capCU := none, capCC := none, capCO := none, capsOk := by decide }

/-- No channel of the block is bounded. -/
def Params.IsUnbounded (p : Params) : Prop := p.capCI = none ∧ p.capCU = none ∧ p.capCC = none ∧ p.capCO = none

theorem Params.isUnbounded_unbounded (p : Params) : p.unbounded.IsUnbounded := ⟨rfl, rfl, rfl, rfl⟩

end Sys2Proof.Config

namespace Sys2Proof.Machine

variable {e : Event} {s t u : State} {p : Config.Params} {es evs : List Event}

/-! ### Counts of a run -/

/-- R211: one code per upsampled value. -/
theorem length_runCodes (p : Config.Params) (xs : List Sample) : (runCodes p xs).length = xs.length * p.F := by
  simp [runCodes, quantize, scale]

/-- R175, R211: one byte for every group, the short one included. -/
theorem length_pack (p : Config.Params) (codes : List Nat) :
    (pack p codes).1.length = (codes.length + (codesPerByte p - 1)) / codesPerByte p := by
  have hK := codesPerByte_pos p
  induction codes using groups_induction hK with
  | short codes hlen =>
    rcases Nat.eq_zero_or_pos codes.length with hzero | hpos
    · obtain rfl := List.length_eq_zero_iff.1 hzero
      simp [Nat.div_eq_of_lt (Nat.sub_one_lt_of_lt hK)]
    · rw [pack_short hpos hlen, List.length_singleton]
      exact (Nat.div_eq_of_lt_le (by omega) (by omega)).symm
  | full group more hlen ih =>
    rw [pack_full hlen, List.length_cons, ih, List.length_append, hlen, Nat.add_assoc, Nat.add_div_left _ hK]

/-! ### Full groups and the open group -/

/-- The bytes of the full groups (R172). -/
def fullBytes (p : Config.Params) (codes : List Nat) : List Byte :=
  (pack p codes).1.take (codes.length / codesPerByte p)

/-- The codes after the last full group, which `ACC` holds (R27). -/
def openGroup (p : Config.Params) (codes : List Nat) : List Nat :=
  codes.drop (codes.length - codes.length % codesPerByte p)

@[simp] theorem length_openGroup (p : Config.Params) (codes : List Nat) :
    (openGroup p codes).length = codes.length % codesPerByte p := by
  rw [openGroup, List.length_drop, Nat.sub_sub_self (Nat.mod_le _ _)]

theorem fullBytes_short {codes : List Nat} (hlen : codes.length < codesPerByte p) : fullBytes p codes = [] := by
  rw [fullBytes, Nat.div_eq_of_lt hlen, List.take_zero]

theorem openGroup_short {codes : List Nat} (hlen : codes.length < codesPerByte p) : openGroup p codes = codes := by
  rw [openGroup, Nat.mod_eq_of_lt hlen, Nat.sub_self, List.drop_zero]

/-- R175: a full group gives its byte. -/
theorem fullBytes_full {group more : List Nat} (hlen : group.length = codesPerByte p) :
    fullBytes p (group ++ more) = byteOf p.W (codesPerByte p) group :: fullBytes p more := by
  rw [fullBytes, pack_full hlen, List.length_append, hlen, Nat.add_div_left _ (codesPerByte_pos p), List.take_succ_cons,
    fullBytes]

/-- A full group leaves nothing open. -/
theorem openGroup_full {group more : List Nat} (hlen : group.length = codesPerByte p) :
    openGroup p (group ++ more) = openGroup p more := by
  rw [openGroup, List.length_append, hlen, Nat.add_mod_left, Nat.add_sub_assoc (Nat.mod_le _ _), ← hlen,
    List.drop_length_add_append, hlen, openGroup]

/-- R175: whatever codes follow, the full groups give the same bytes. -/
theorem pack_append_take (codes more : List Nat) :
    (pack p (codes ++ more)).1.take (codes.length / codesPerByte p) = fullBytes p codes := by
  induction codes using groups_induction (codesPerByte_pos p) with
  | short codes hlen => rw [fullBytes_short hlen, Nat.div_eq_of_lt hlen, List.take_zero]
  | full group rest hlen ih =>
    rw [List.append_assoc, pack_full hlen, fullBytes_full hlen, List.length_append, hlen,
      Nat.add_div_left _ (codesPerByte_pos p), List.take_succ_cons, ih]

/-- R27: `ACC` holds the codes of the open group and loses no bit of them. -/
theorem byteOf_openGroup_toNat {codes : List Nat} (hcodes : ∀ q ∈ codes, q ≤ mask p.W) :
    (byteOf p.W (openGroup p codes).length (openGroup p codes)).toNat =
      byteSum p.W (openGroup p codes).length (openGroup p codes) :=
  byteOf_toNat (by simpa using (Nat.mod_lt _ (codesPerByte_pos p)).le) fun q hq => hcodes q (List.mem_of_mem_drop hq)

/-! ### What the samples so far have fixed (R208) -/

/-- R101, R106: the spans between the samples so far are the first values, whatever samples follow. -/
theorem interpolate_append_take (F : Nat) (xs : List Sample) (x : Sample) (ys : List Sample) :
    (interpolate F (xs ++ [x] ++ ys)).take (xs.length * F) = (interpolate F (xs ++ [x])).take (xs.length * F) := by
  induction xs with
  | nil => simp
  | cons a xs ih =>
    obtain ⟨b, rest, hrest⟩ := List.exists_cons_of_ne_nil (List.append_ne_nil_of_right_ne_nil xs (by simp : [x] ≠ []))
    rw [hrest, List.cons_append] at ih
    rw [List.cons_append, List.cons_append, hrest, List.cons_append, interpolate, interpolate, List.length_cons,
      Nat.succ_mul, Nat.add_comm]
    simp [List.take_append, ih]

/-- The values that a span to a later sample has already fixed (R101, R208). -/
def fixedValues (p : Config.Params) (xs : List Sample) (x : Sample) : List ℚ :=
  (interpolate p.F (xs ++ [x])).take (xs.length * p.F)

/-- The codes of the values that are fixed, and the error after them (R208). -/
def fixedCodes (p : Config.Params) (xs : List Sample) (x : Sample) : List Nat × ℚ :=
  quantizeFrom p.W 0 (scale p.W (fixedValues p xs x))

@[simp] theorem length_fixedCodes (p : Config.Params) (xs : List Sample) (x : Sample) :
    (fixedCodes p xs x).1.length = xs.length * p.F := by
  simp [fixedCodes, fixedValues, scale, Nat.add_mul]

/-- R137, R208: the codes that are fixed begin the codes of every run with these samples first. -/
theorem fixedCodes_isPrefix (p : Config.Params) (xs : List Sample) (x : Sample) (ys : List Sample) :
    (fixedCodes p xs x).1 <+: runCodes p (xs ++ [x] ++ ys) := by
  have hsplit := List.take_append_drop (xs.length * p.F) (interpolate p.F (xs ++ [x] ++ ys))
  rw [interpolate_append_take] at hsplit
  rw [runCodes, quantize, ← hsplit, scale, List.map_append, quantizeFrom_append]
  exact List.prefix_append _ _

/-- R208: the bytes that are fixed begin the output of every run with these samples first. -/
theorem runOutput_take (p : Config.Params) (xs : List Sample) (x : Sample) (ys : List Sample) :
    (runOutput p (xs ++ [x] ++ ys)).take (xs.length * p.F / codesPerByte p) =
      (fullBytes p (fixedCodes p xs x).1).map .dat := by
  obtain ⟨more, hcodes⟩ := fixedCodes_isPrefix p xs x ys
  have hbytes := pack_append_take (p := p) (fixedCodes p xs x).1 more
  rw [length_fixedCodes] at hbytes
  have hle : xs.length * p.F / codesPerByte p ≤ (pack p (runCodes p (xs ++ [x] ++ ys))).1.length := by
    rw [length_pack, length_runCodes]
    exact Nat.div_le_div_right ((Nat.mul_le_mul_right _ (by simp)).trans (Nat.le_add_right _ _))
  rw [runOutput, List.take_append_of_le_length (by simpa using hle), ← List.map_take, ← hcodes, hbytes]

/-! ### A bounded block and the same block with unbounded channels -/

/-- The same state of the same block with unbounded channels. -/
def State.unbounded (s : State) : State := { s with cfg := s.cfg.unbounded }

/-- The phase is advanced without a look at the channels (R112). -/
theorem nextPhase_unbounded (s : State) : nextPhase s.unbounded = (nextPhase s).unbounded := by
  have hsame : (s.unbounded.ph + 1 < s.unbounded.cfg.F) = (s.ph + 1 < s.cfg.F) := rfl
  unfold nextPhase
  simp only [hsame]
  split <;> rfl

/-- R54, R62: what a block does where there is room, it does with unbounded channels as well. -/
theorem Effect.unbounded (h : Effect e s t) : Effect e s.unbounded t.unbounded := by
  cases h with
  | upsFirst hact hvl hci => exact .upsFirst (s := s.unbounded) hact hvl hci
  | upsNext hact hvl hci => exact .upsNext (s := s.unbounded) hact hvl hci
  | upsEmit hact hroom =>
    have hemit : Effect .upsEmit s.unbounded _ := .upsEmit hact rfl
    rw [nextPhase_unbounded] at hemit
    exact hemit
  | upsTail hact hvl hci => exact .upsTail (s := s.unbounded) hact hvl hci
  | upsFwd hact hvl hci hroom => exact .upsFwd (s := s.unbounded) hact hvl hci rfl
  | qntStep hcu hroom => exact .qntStep (s := s.unbounded) hcu rfl
  | qntEnd hcu hroom => exact .qntEnd (s := s.unbounded) hcu rfl
  | pckShift hcc hcnt => exact .pckShift (s := s.unbounded) hcc hcnt
  | pckSend hcc hcnt hroom => exact .pckSend (s := s.unbounded) hcc hcnt rfl
  | pckPad hcc hcnt hroom => exact .pckPad (s := s.unbounded) hcc hcnt rfl
  | pckEor hcc hcnt hroom => exact .pckEor (s := s.unbounded) hcc hcnt rfl

/-- The transfers at the ports included. -/
theorem Moves.unbounded (h : Moves e s t) : Moves e s.unbounded t.unbounded := by
  cases h with
  | put hsend hready hdec => exact .put (s := s.unbounded) hsend rfl hdec
  | take hco => exact .take (s := s.unbounded) hco
  | reset => exact .reset (s := s.unbounded)
  | internal heff => exact .internal heff.unbounded

/-- What is drained is drained whatever the capacities are. -/
theorem Drained.unbounded (h : Drained s) : Drained s.unbounded := by
  rw [drained_iff] at h ⊢
  exact h

/-- The unbounded block reaches what the bounded one does, by the steps of the schedule that are taken. -/
theorem Reaches.unbounded (h : Reaches s t) : Reaches s.unbounded t.unbounded := by
  obtain ⟨evs, hrst, hrun⟩ := h
  induction evs generalizing s with
  | nil =>
    cases hrun
    exact ⟨[], List.not_mem_nil, rfl⟩
  | cons e es ih =>
    obtain ⟨he, hes⟩ := List.ne_and_not_mem_of_not_mem_cons hrst
    rcases perform_waits_or_moves e s with hwait | ⟨s', hmove⟩
    · exact ih hes (runSchedule_cons he.symm hwait ▸ hrun)
    · exact hmove.unbounded.reaches he.symm (ih hes (runSchedule_cons he.symm hmove.perform_eq ▸ hrun))

/-- R62: every schedule of a block that does everything there is to do leads where some schedule of the unbounded block
does. -/
theorem Reaches.eq_of_drained (ht : Reaches s t) (hu : Reaches s.unbounded u) (hdt : Drained t) (hdu : Drained u) :
    ∃ c, t = { u with cfg := c } := by
  obtain ⟨evs₁, hrst₁, hrun₁⟩ := ht.unbounded
  obtain ⟨evs₂, hrst₂, hrun₂⟩ := hu
  obtain rfl : t.unbounded = u := everyScheduleEndsInOneState _ _ _ _ _ hrst₁ hrst₂ hrun₁ hrun₂ hdt.unbounded hdu
  exact ⟨t.cfg, rfl⟩

/-! ### One agent after another -/

/-- A schedule goes on from where its first part leads. -/
theorem runSchedule_append (hrst : .rst ∉ evs) (h : runSchedule evs s = .next t) :
    runSchedule (evs ++ es) s = runSchedule es t := by
  induction evs generalizing s with
  | nil =>
    cases h
    rfl
  | cons e evs ih =>
    obtain ⟨he, hevs⟩ := List.ne_and_not_mem_of_not_mem_cons hrst
    obtain ⟨s', hperform⟩ := exists_perform_eq e s
    rw [List.cons_append, runSchedule_cons he.symm hperform, ih hevs (runSchedule_cons he.symm hperform ▸ h)]

theorem Reaches.trans (hst : Reaches s t) (htu : Reaches t u) : Reaches s u := by
  obtain ⟨evs₁, hrst₁, hrun₁⟩ := hst
  obtain ⟨evs₂, hrst₂, hrun₂⟩ := htu
  exact ⟨evs₁ ++ evs₂, by simp [hrst₁, hrst₂], by rw [runSchedule_append hrst₁ hrun₁, hrun₂]⟩

/-- A schedule from a state that can be reached. -/
theorem Reaches.run (h : Reaches s t) (hrst : .rst ∉ evs) (hrun : runSchedule evs t = .next u) : Reaches s u :=
  h.trans ⟨evs, hrst, hrun⟩

/-- R204: the host puts in the commands it has, one after another. -/
theorem runSchedule_puts {ts : List CmdTok} {more : List CommandWord} (hcap : s.cfg.capCI = none)
    (hsend : s.toSend = ts.map commandWord ++ more) :
    runSchedule (List.replicate ts.length .hostPut ++ es) s =
      runSchedule es { s with toSend := more, ci := s.ci ++ ts } := by
  induction ts generalizing s with
  | nil => simp [← show s.toSend = more from hsend]
  | cons c ts ih =>
    have hput : Moves .hostPut s _ := .put hsend (by simp [State.ciReady, hcap]) (decodeCommand_commandWord c)
    rw [List.length_cons, List.replicate_succ, List.cons_append, runSchedule_cons (by decide) hput.perform_eq,
      ih (by exact hcap) rfl]
    simp

/-- R205: the host takes every word of `CO`, one after another. -/
theorem runSchedule_takes {us rest : List OutTok} (hco : s.co = us ++ rest) :
    runSchedule (List.replicate us.length .hostTake ++ es) s =
      runSchedule es { s with co := rest, received := s.received ++ us } := by
  induction us generalizing s with
  | nil => simp [← show s.co = rest from hco]
  | cons w us ih =>
    have htake : Moves .hostTake s _ := .take hco
    rw [List.length_cons, List.replicate_succ, List.cons_append, runSchedule_cons (by decide) htake.perform_eq, ih rfl]
    simp

theorem reaches_puts (ts : List CmdTok) {more : List CommandWord} (hcap : s.cfg.capCI = none)
    (hsend : s.toSend = ts.map commandWord ++ more) :
    Reaches s { s with sched := [], toSend := more, ci := s.ci ++ ts } :=
  ⟨_, by simp [List.mem_replicate], runSchedule_puts (es := []) hcap hsend⟩

theorem reaches_takes (s : State) : Reaches s { s with sched := [], co := [], received := s.received ++ s.co } :=
  ⟨_, by simp [List.mem_replicate], runSchedule_takes (es := []) (by simp)⟩

/-- R101, R111: the spans to the later samples of a run, while no END has come. -/
theorem runSchedule_spans {F : Nat} {ys : List Sample} {rest : List CmdTok} (hF : s.cfg.F = F) (hact : s.act = false)
    (hvl : s.vl = true) (hph : s.ph = 0) (hcap : s.cfg.capCU = none) (hci : s.ci = ys.map .smp ++ rest) :
    runSchedule ((List.replicate ys.length (.upsNext :: List.replicate F .upsEmit)).flatten ++ es) s =
      runSchedule es { s with
        ci := rest
        cu := s.cu ++ ((interpolate F (s.xl :: ys)).take (ys.length * F)).map .val
        xl := ys.getLast?.getD s.xl
        xr := ys.getLast?.getD s.xr } := by
  induction ys generalizing s with
  | nil => simp [← show s.ci = rest from hci]
  | cons y ys ih =>
    have hvalues : (interpolate F (s.xl :: y :: ys)).take ((ys.length + 1) * F) =
        spanValues F s.xl y ++ (interpolate F (y :: ys)).take (ys.length * F) := by
      rw [interpolate, Nat.succ_mul, Nat.add_comm, List.take_append]
      simp [List.take_of_length_le]
    rw [List.length_cons, List.replicate_succ, List.flatten_cons, List.append_assoc,
      runSchedule_next hF hact hvl hcap hci, ih (by exact hF) rfl (by exact hvl) rfl (by exact hcap) rfl, hvalues]
    simp [List.getLast?_cons, hact, hph]

/-- R177: the codes of full groups leave as bytes, those of the open group stay in `ACC`. -/
theorem runSchedule_allShifts {codes : List Nat} {rest : List CodeTok} (hp : s.cfg = p) (hacc : s.acc = 0#8)
    (hcnt : s.cnt = 0) (hcap : p.capCO = none) (hcodes : ∀ q ∈ codes, q ≤ mask p.W)
    (hcc : s.cc = codes.map .code ++ rest) :
    runSchedule (List.replicate codes.length .pckShift ++ es) s = runSchedule es { s with
      cc := rest
      co := s.co ++ (fullBytes p codes).map .dat
      acc := byteOf p.W (openGroup p codes).length (openGroup p codes)
      cnt := (openGroup p codes).length } := by
  induction codes using groups_induction (codesPerByte_pos p) generalizing s with
  | short codes hlen =>
    subst hp
    rw [runSchedule_shifts (by omega) hcc, hacc, foldl_shiftIn hcodes, fullBytes_short hlen, openGroup_short hlen]
    simp [hcnt]
  | full group more hlen ih =>
    subst hp
    obtain ⟨hgroup, hmore⟩ := List.forall_mem_append.1 hcodes
    rw [List.map_append, List.append_assoc] at hcc
    rw [List.length_append, List.replicate_add, List.append_assoc, hlen,
      runSchedule_group hlen hgroup hacc hcnt hcap hcc, ih (by rfl) (by exact hacc) (by exact hcnt) hmore rfl,
      fullBytes_full hlen, openGroup_full hlen]
    simp

/-! ### Whole runs -/

/-- An idle block with no command before it has nothing to do (R16, R210). -/
theorem BlockIdle.drained (h : BlockIdle s) (hsend : s.toSend = []) : Drained s := by
  obtain ⟨-, hact, -, -, -, -, -, hci, hcu, hcc, hco⟩ := h
  exact drained_iff.2 ⟨hsend, hci, hcu, hcc, hco, hact⟩

/-- The commands of a run are its samples and END (R207). -/
theorem runCommands_eq (xs : List Sample) :
    runCommands xs = (xs.map CmdTok.smp ++ [CmdTok.endRun]).map commandWord := by
  simp [runCommands]

theorem rst_notMem_upsSchedule (F n : Nat) : .rst ∉ upsSchedule F n := by
  cases n <;> simp [upsSchedule, List.mem_replicate]

theorem rst_notMem_qntSchedule (n : Nat) : .rst ∉ qntSchedule n := by
  simp [qntSchedule, List.mem_replicate]

theorem rst_notMem_pckSchedule (K n : Nat) : .rst ∉ pckSchedule K n := by
  unfold pckSchedule
  split <;> simp [List.mem_replicate]

/-- R206: an unbounded block in its reset state can do the whole of its next run. -/
theorem exists_reaches_run {xs : List Sample} {more : List CommandWord} (hcap : s.cfg.IsUnbounded)
    (hidle : BlockIdle s) (hsend : s.toSend = runCommands xs ++ more) :
    ∃ u, Reaches s u ∧ BlockIdle u ∧ u.cfg = s.cfg ∧ u.received = s.received ++ runOutput s.cfg xs ∧
      u.toSend = more := by
  obtain ⟨hCI, hCU, hCC, hCO⟩ := hcap
  obtain ⟨hvl, hact, hph, herr, hacc, hcnt, htrunc, hci, hcu, hcc, hco⟩ := hidle
  have hput := reaches_puts _ hCI (runCommands_eq xs ▸ hsend)
  have hups := hput.run (rst_notMem_upsSchedule _ _)
    (upsamplerComputesInterpolate _ xs [] (by exact hvl) (by exact hact) (by exact hph) (by exact hCU) (by simp [hci]))
  have hqnt := hups.run (rst_notMem_qntSchedule _)
    ((quantizerComputesQuantize _ (interpolate s.cfg.F xs) [] (by exact hCC)).2 (by exact herr) (by simp [hcu]))
  have hpck := hqnt.run (rst_notMem_pckSchedule _ _)
    (packerComputesPack _ (runCodes s.cfg xs) [] (by exact hacc) (by exact hcnt) (by exact htrunc) (by exact hCO)
      (fun q => le_mask_of_mem_quantizeFrom) (by simp [hcc, runCodes]))
  exact ⟨_, hpck.trans (reaches_takes _), by simp [BlockIdle, *], rfl, by simp [runOutput, hco], rfl⟩

/-- R207: run after run. -/
theorem exists_reaches_runs {runs : List (List Sample)} {more : List CommandWord} (hcap : s.cfg.IsUnbounded)
    (hidle : BlockIdle s) (hsend : s.toSend = runsCommands runs ++ more) :
    ∃ u, Reaches s u ∧ BlockIdle u ∧ u.cfg = s.cfg ∧ u.received = s.received ++ runsOutput s.cfg runs ∧
      u.toSend = more := by
  induction runs generalizing s with
  | nil =>
    exact ⟨{ s with sched := [] }, ⟨[], List.not_mem_nil, rfl⟩, hidle, rfl, by simp [runsOutput],
      by simpa [runsCommands] using hsend⟩
  | cons xs runs ih =>
    rw [runsCommands, List.flatMap_cons, List.append_assoc] at hsend
    obtain ⟨v, hrun, hidle, hcfg, hreceived, hsend⟩ := exists_reaches_run hcap hidle hsend
    obtain ⟨u, hruns, hidle, hcfg', hreceived', hsend⟩ := ih (hcfg ▸ hcap) hidle hsend
    exact ⟨u, hrun.trans hruns, hidle, hcfg'.trans hcfg,
      by rw [hreceived', hreceived, hcfg, runsOutput, runsOutput, List.flatMap_cons, List.append_assoc], hsend⟩

/-- R208: the samples of a run without its END give the values of the spans between them. -/
theorem Reaches.fixedValues (h : Reaches u s) (xs : List Sample) (x : Sample) (hact : s.act = false)
    (hvl : s.vl = false) (hph : s.ph = 0) (hcap : s.cfg.capCU = none) (hci : s.ci = (xs ++ [x]).map .smp) :
    ∃ xr, Reaches u { s with
      sched := [], ci := [], cu := s.cu ++ (Machine.fixedValues s.cfg xs x).map .val
      xl := x, xr := xr, vl := true } := by
  obtain ⟨a, ys, hxs⟩ := List.exists_cons_of_ne_nil (List.append_ne_nil_of_right_ne_nil xs (List.cons_ne_nil x []))
  have hlen : xs.length = ys.length := by simpa using congrArg List.length hxs
  have hlast : ys.getLast?.getD a = x := by
    simpa [List.getLast?_cons, eq_comm] using congrArg List.getLast? hxs
  have hfirst : Effect .upsFirst s _ := .upsFirst (rest := ys.map .smp) hact hvl (by rw [hci, hxs, List.map_cons])
  have hspans := hfirst.runSchedule_cons.trans (runSchedule_spans (ys := ys) (rest := []) (es := []) rfl
    (by exact hact) rfl (by exact hph) (by exact hcap) (by simp))
  simp only [runSchedule_nil, hlast, ← hlen, ← hxs] at hspans
  exact ⟨_, h.run (by simp [List.mem_replicate]) hspans⟩

/-- R208: an unbounded block in its reset state can do what is fixed of a run that has no END. -/
theorem exists_reaches_incomplete {xs : List Sample} {x : Sample} {codes : List Nat} {err : ℚ}
    (hfixed : fixedCodes s.cfg xs x = (codes, err)) (hcap : s.cfg.IsUnbounded) (hidle : BlockIdle s)
    (hsend : s.toSend = (xs ++ [x]).map fun y => commandWord (.smp y)) :
    ∃ xr, Reaches s { s with
      sched := [], toSend := []
      received := s.received ++ (fullBytes s.cfg codes).map .dat
      xl := x, xr := xr, vl := true, err := err
      acc := byteOf s.cfg.W (openGroup s.cfg codes).length (openGroup s.cfg codes)
      cnt := (openGroup s.cfg codes).length } := by
  obtain ⟨hCI, hCU, hCC, hCO⟩ := hcap
  obtain ⟨hvl, hact, hph, herr, hacc, hcnt, -, hci, hcu, hcc, hco⟩ := hidle
  have hquantize : quantizeFrom s.cfg.W s.err (scale s.cfg.W (fixedValues s.cfg xs x)) = (codes, err) :=
    herr ▸ hfixed
  have hcodes : ∀ q ∈ (fixedCodes s.cfg xs x).1, q ≤ mask s.cfg.W := fun q => le_mask_of_mem_quantizeFrom
  rw [hfixed] at hcodes
  have hput := reaches_puts ((xs ++ [x]).map .smp) (more := []) hCI (by simpa [Function.comp_def] using hsend)
  obtain ⟨xr, hups⟩ := hput.fixedValues xs x hact hvl hph hCU (by simp [hci])
  have hqnt := hups.run (by simp [List.mem_replicate])
    (runSchedule_qntSteps (us := fixedValues s.cfg xs x) (rest := []) (es := []) (by exact hCC) (by simp [hcu]))
  have hpck := hqnt.run (by simp [List.mem_replicate])
    (runSchedule_allShifts (codes := codes) (rest := []) (es := []) (by rfl) (by exact hacc) (by exact hcnt)
      (by exact hCO) hcodes (by simp [hcc, hquantize]))
  refine ⟨xr, ?_⟩
  simpa [hci, hcu, hcc, hco, hquantize] using hpck.trans (reaches_takes _)

end Sys2Proof.Machine

namespace Sys2Proof

open Sys2Proof.Machine

/-- Settles O53: one byte for every group of codes, and a flag for a short one. -/
theorem countsOfARun : Obligations.CountsOfARun := by
  intro p xs
  refine ⟨length_interpolate p.F xs, length_runCodes p xs, (pack p (runCodes p xs)).1, (pack p (runCodes p xs)).2, rfl,
    ?_, ?_, fun hF hW => ?_⟩
  · rw [length_pack, length_runCodes]
  · rw [pack_flag, length_runCodes, decide_eq_true_iff, Nat.dvd_iff_mod_eq_zero]
  · obtain ⟨hK, -⟩ := constants_of_width_four p hW
    rw [length_pack, pack_flag, length_runCodes, hK, hF]
    exact ⟨by omega, by omega, decide_eq_false (by omega)⟩

/-- Settles O57: the unbounded block can do the runs one after another, and every schedule of the block ends there. -/
theorem commandStreamGivesTheRunsOutputs : Obligations.CommandStreamGivesTheRunsOutputs := by
  intro s t runs evs hidle hsend hrst hrun hdrained
  obtain ⟨u, hreaches, hidle', -, hreceived, hsend'⟩ := exists_reaches_runs (s := s.unbounded)
    s.cfg.isUnbounded_unbounded hidle (hsend.trans (List.append_nil _).symm)
  obtain ⟨c, rfl⟩ := Reaches.eq_of_drained ⟨evs, hrst, hrun⟩ hreaches hdrained (hidle'.drained hsend')
  exact ⟨hreceived, hidle', hsend'⟩

/-- Settles O58: after the complete runs the unbounded block can do what the samples have fixed, and every schedule of
the block ends there. -/
theorem incompleteRunHoldsBackItsEnd : Obligations.IncompleteRunHoldsBackItsEnd := by
  intro s t runs xs x evs hidle hsend hrst hrun hdrained
  obtain ⟨v, hruns, hidle', hcfg, hreceived, hsend'⟩ := exists_reaches_runs (s := s.unbounded)
    s.cfg.isUnbounded_unbounded hidle hsend
  obtain ⟨xr, hend⟩ := exists_reaches_incomplete rfl (hcfg ▸ s.cfg.isUnbounded_unbounded) hidle' hsend'
  rw [hcfg] at hend
  obtain ⟨-, hact, hph, -, -, -, htrunc, hci, hcu, hcc, hco⟩ := hidle'
  obtain ⟨c, rfl⟩ := Reaches.eq_of_drained ⟨evs, hrst, hrun⟩ (hruns.trans hend) hdrained
    (drained_iff.2 ⟨rfl, hci, hcu, hcc, hco, hact⟩)
  intro p k q
  have hlen : q.1.length = k := length_fixedCodes p xs x
  have hopen : openGroup p q.1 = q.1.drop (k - k % codesPerByte p) := by rw [openGroup, hlen]
  have hcount : (openGroup p q.1).length = k % codesPerByte p := by rw [length_openGroup, hlen]
  have hacc : (byteOf p.W (openGroup p q.1).length (openGroup p q.1)).toNat =
      byteSum p.W (k % codesPerByte p) (q.1.drop (k - k % codesPerByte p)) := by
    rw [byteOf_openGroup_toNat fun _ => le_mask_of_mem_quantizeFrom, hcount, hopen]
  refine ⟨fun ys => ?_, rfl, rfl, hact, hph, htrunc, rfl, hcount, hacc, rfl, hci, hcu, hcc, hco⟩
  rw [hreceived, runOutput_take]
  rfl

end Sys2Proof
end

section
/-! PROOFS. The statements of 70_reset_and_hazards.md: what reset leaves (R261) and what the reset input does (R260).
A block of any configuration that is in its reset state accepts a command and shows no output, for every capacity has
room in an empty channel. -/

namespace Sys2Proof.Machine

variable {s : State}

/-- The reset state is one of those that R262 describes. -/
theorem blockIdle_reset : BlockIdle State.reset :=
  ⟨rfl, rfl, rfl, rfl, rfl, rfl, rfl, rfl, rfl, rfl, rfl⟩

/-- R60: an empty `CI` takes a word, whatever its capacity (R54). -/
theorem ciReady_of_ci_nil (hci : s.ci = []) : s.ciReady = true := by
  rw [State.ciReady, hci]
  exact room_nil s.cfg.capsOk.1

/-- R60: `co_valid` says that `CO` holds a token. -/
theorem coValid_eq_false_iff : s.coValid = false ↔ s.co = [] := by
  simp [State.coValid]

/-- The step of the reset input, once the event has been chosen (R260). -/
theorem step_of_rst (hnext : nextEvent s = .rst) : step s = .next (applyReset (advance s)) := by
  rw [step_eq, hnext, perform_rst]

end Sys2Proof.Machine

namespace Sys2Proof

open Sys2Proof.Machine

/-- Settles O9: the block is in its reset state, and its ports show the empty channels. -/
theorem resetLeavesTheStatedValues : Obligations.ResetLeavesTheStatedValues := by
  obtain ⟨hvl, hact, hph, herr, hacc, hcnt, htrunc, hci, hcu, hcc, hco⟩ := blockIdle_reset
  exact ⟨herr, hvl, hact, hph, hacc, hcnt, htrunc, hci, hcu, hcc, hco, ciReady_of_ci_nil hci,
    coValid_eq_false_iff.2 hco⟩

/-- Settles O10: `XL` and `XR` hold the free values drawn by the reset. -/
theorem resetInputGivesTheResetState : Obligations.ResetInputGivesTheResetState := by
  intro s hnext
  exact ⟨Config.freeXL (advance s).tick, Config.freeXR (advance s).tick, step_of_rst hnext⟩

end Sys2Proof
end

section
/-! PROOFS. The statements of 40_upsampler.md Part 2, 41_quantizer.md Part 3 and 42_packer.md Part 2: an agent has at
most one enabled step. Every step belongs to one agent, and where its guard holds it is the step that the agent's state
leaves open. -/

namespace Sys2Proof.Machine

variable {e : Event} {A : Agent} {s : State}

/-- The agent that takes the step (R61); the reset input is no agent's. -/
def agentOf : Event → Option Agent
  | .hostPut => some .hostPut
  | .hostTake => some .hostTake
  | .upsFirst | .upsNext | .upsEmit | .upsTail | .upsFwd => some .ups
  | .qntStep | .qntEnd => some .qnt
  | .pckShift | .pckPad | .pckEor => some .pck
  | .rst => none

theorem agentOf_of_mem_upsSteps : ∀ e ∈ upsSteps, agentOf e = some .ups := by
  simp [upsSteps, agentOf]

theorem agentOf_of_mem_qntSteps : ∀ e ∈ qntSteps, agentOf e = some .qnt := by
  simp [qntSteps, agentOf]

theorem agentOf_of_mem_pckSteps : ∀ e ∈ pckSteps, agentOf e = some .pck := by
  simp [pckSteps, agentOf]

/-- The step that an agent's state leaves open is a step of that agent. -/
@[simp] theorem agentOf_stepIn (A : Agent) (s : State) : agentOf (A.stepIn s) = some A := by
  cases A with
  | hostPut | hostTake => rfl
  | ups | qnt | pck => unfold Agent.stepIn; split_ifs <;> rfl

/-- An enabled step of an agent is the one that the agent's state leaves open. -/
theorem eq_stepIn_of_enabled (h : enabled e s = true) (hagent : agentOf e = some A) : e = A.stepIn s := by
  obtain ⟨t, hmove⟩ := exists_moves_of_enabled h
  have hrst : e ≠ .rst := by rintro rfl; cases hagent
  obtain ⟨U, hU⟩ := hmove.exists_describes hrst
  have hUA : U.agent = A := by simpa [hU.event_eq] using hagent
  exact hUA ▸ hU.event_eq

end Sys2Proof.Machine

namespace Sys2Proof

open Sys2Proof.Machine

/-- Settles O31: both steps are the one that the agent's state leaves open. -/
theorem atMostOneStepPerAgent : Obligations.AtMostOneStepPerAgent := by
  intro s a b ha hb hagent
  have unique {A : Agent} (haA : agentOf a = some A) (hbA : agentOf b = some A) : a = b :=
    (eq_stepIn_of_enabled ha haA).trans (eq_stepIn_of_enabled hb hbA).symm
  rcases hagent with ⟨hua, hub⟩ | ⟨hqa, hqb⟩ | ⟨hpa, hpb⟩
  · exact unique (agentOf_of_mem_upsSteps a hua) (agentOf_of_mem_upsSteps b hub)
  · exact unique (agentOf_of_mem_qntSteps a hqa) (agentOf_of_mem_qntSteps b hqb)
  · exact unique (agentOf_of_mem_pckSteps a hpa) (agentOf_of_mem_pckSteps b hpb)

end Sys2Proof
end
